-- ==== Sys2Proof/Word.lean ====
section
/-! DEFINITION. The plainest types of the block: bytes and toy-ISA fields. An Address, an unsigned
integer in `[0, 2^AW)` (00_scope.md R9), is a plain `Nat` throughout the model: no address computation
of the block wraps (R17), and the bound is a well-formedness check (R72). -/

namespace Sys2Proof

/-- A byte is 8 bits (00_scope.md R15). -/
abbrev Byte := BitVec 8

/-- A 3-bit register code of the toy ISA (30_encoding.md R78). -/
abbrev RegCode := BitVec 3

/-- A 16-bit immediate word of the toy ISA, unsigned (R80). -/
abbrev Imm := BitVec 16

end Sys2Proof
end

