-- ==== Sys2Proof/Config.lean ====
section
/-! DEFINITION. The implementation parameters of 00_scope.md section 4. The spec leaves every one of
them OPEN, so each is an opaque constant here: a claim about the machine holds whatever its value. -/

namespace Sys2Proof

/-- Where an operand of a toy-ISA instruction comes from (R12): an immediate word, a register's
value, or memory at the address a register holds. -/
inductive OperandSource where
  | const
  | raw
  | ind
deriving DecidableEq, Repr, Inhabited

/-- An opcode tag (R11). The spec names only Mov; every other tag of an instance's map is known
by a number (R90 writes such a tag `op<n>`). -/
inductive Opcode where
  | mov
  | other (tag : Nat)
deriving DecidableEq, Repr, Inhabited

/-- The parameters an instance of the block is fixed by (R9 to R13). -/
structure Params where
  /-- `ADDR_BITS`, written AW (R9). -/
  addrBits : Nat
  /-- `ROOT_TOTAL_SIZE` (R10). -/
  rootTotal : Nat
  /-- `OPCODE_MAP`; `none` is INVALID (R11). -/
  opcodeMap : BitVec 4 → Option Opcode
  /-- `FORMAT_TABLE` (R12, R76). -/
  formatTable : BitVec 3 → OperandSource × OperandSource
  /-- `MAX_REGIONS`; `none` is unbounded (R13). -/
  maxRegions : Option Nat
  /-- `MAX_WINDOW_BYTES`; `none` is unbounded (R13). -/
  maxWindow : Option Nat

/-- The same instance with region tables of any length. -/
def Params.uncapped (p : Params) : Params := { p with maxRegions := none }

/-- The greatest Address, `2^AW - 1`. -/
def Params.maxAddr (p : Params) : Nat := 2 ^ p.addrBits - 1

/-- The eight operand-format codes. -/
def formatCodes : List (BitVec 3) := [0#3, 1#3, 2#3, 3#3, 4#3, 5#3, 6#3, 7#3]

/-- The three constraints every `FORMAT_TABLE` must satisfy (30_encoding.md R76). -/
def legalFormatTable (f : BitVec 3 → OperandSource × OperandSource) : Bool :=
  f 2#3 == (.raw, .const)
    && formatCodes.any (fun c => c != 2#3 && f c == (.const, .const))
    && decide (formatCodes.map f).Nodup

/-- What the spec demands of the parameters of an instance (R9, R10, R11, R76). -/
def Params.legal (p : Params) : Prop :=
  1 ≤ p.addrBits ∧ p.rootTotal ≤ p.maxAddr ∧ p.opcodeMap 1#4 = some .mov
    ∧ legalFormatTable p.formatTable = true

/-- One table that satisfies R76. It only closes the definition of `Config.formatTable` for a choice
that R76 forbids; nothing can evaluate which case holds. -/
def someFormatTable (c : BitVec 3) : OperandSource × OperandSource :=
  match c.toNat with
  | 0 => (.raw, .raw)
  | 1 => (.const, .const)
  | 2 => (.raw, .const)
  | 3 => (.const, .raw)
  | 4 => (.raw, .ind)
  | 5 => (.ind, .raw)
  | 6 => (.const, .ind)
  | _ => (.ind, .const)

/-- OPEN: `ADDR_BITS - 1` (R9: `AW >= 1`). Log entry 1. -/
opaque Config.addrBitsLessOne : Nat

/-- OPEN: the number `ROOT_TOTAL_SIZE` is the Address of (R10). Log entry 1. -/
opaque Config.rootTotalOpen : Nat

/-- OPEN: `OPCODE_MAP` at every opcode but 1 (R11). Log entry 2. -/
opaque Config.opcodeMapOpen : BitVec 4 → Option Opcode

/-- OPEN: the choice of `FORMAT_TABLE` (R12, R76). Log entry 3. -/
opaque Config.formatTableOpen : BitVec 3 → OperandSource × OperandSource

/-- OPEN: `MAX_REGIONS` (R13), unbounded or any count, 0 too. Log entry 4. -/
opaque Config.maxRegions : Option Nat

/-- OPEN: `MAX_WINDOW_BYTES` (R13), unbounded or any count, 0 too. Log entry 4. -/
opaque Config.maxWindow : Option Nat

/-- `ADDR_BITS` (R9). -/
def Config.addrBits : Nat := Config.addrBitsLessOne + 1

/-- `ROOT_TOTAL_SIZE` (R10), an Address. -/
def Config.rootTotal : Nat := Config.rootTotalOpen % 2 ^ Config.addrBits

/-- `OPCODE_MAP` (R11): `OPCODE_MAP(1) = Mov`, every other entry OPEN. -/
def Config.opcodeMap (op : BitVec 4) : Option Opcode :=
  if op = 1#4 then some .mov else Config.opcodeMapOpen op

/-- `FORMAT_TABLE` (R76): `0b010` is `(RAW, CONST)`; the rest is any choice the three constraints
allow. -/
def Config.formatTable (c : BitVec 3) : OperandSource × OperandSource :=
  if c = 2#3 then (.raw, .const)
  else if legalFormatTable Config.formatTableOpen then Config.formatTableOpen c
  else someFormatTable c

/-- The parameters of the machine. -/
def Config.params : Params :=
  { addrBits := Config.addrBits
    rootTotal := Config.rootTotal
    opcodeMap := Config.opcodeMap
    formatTable := Config.formatTable
    maxRegions := Config.maxRegions
    maxWindow := Config.maxWindow }

end Sys2Proof
end

