-- ==== Sys2Proof/Syntax.lean ====
section
/-! DEFINITION. Space values, the instructions (one constructor per row of the opcode table), and the
requests that carry them to the block. -/

namespace Sys2Proof

/-- The contents of a byte buffer: the listed cells, every unlisted cell being 0, the value a buffer
is created with (10_state.md R26, R42). Log entry 12. -/
abbrev Memory := List Host.Cell

/-- `Dense(size, bytes)`, a DenseStaticMemory value (R26). -/
structure Dense where
  size : Nat
  bytes : Memory
deriving DecidableEq, Repr

mutual

/-- A Space value: a backing store or a composite of them (R25). -/
inductive Space where
  /-- `Dense(size, bytes)` (R26). -/
  | dense (d : Dense)
  /-- `Zero(size)` (R27). -/
  | zero (size : Nat)
  /-- `Rom(inner)` (R28). -/
  | rom (inner : Dense)
  /-- `Sparse(total, entries)` (R29). -/
  | sparse (total : Nat) (entries : Regions)
deriving DecidableEq, Repr

/-- A region table: the entries `(offset, sub)` in index order (R29, R35). -/
inductive Regions where
  | nil
  | cons (offset : Nat) (sub : Space) (rest : Regions)
deriving DecidableEq, Repr

end

/-- A Space value of kind Sparse, the kind the root always has (R20). -/
structure Composite where
  total : Nat
  entries : Regions
deriving DecidableEq, Repr

/-- The composite as a Space value. -/
def Composite.toSpace (c : Composite) : Space := .sparse c.total c.entries

/-- The kind of a store, as FIND reports it (R35, 30_encoding.md R69). -/
inductive Kind where
  | dense
  | zero
  | rom
  | sparse
deriving DecidableEq, Repr

/-- The instructions: one constructor per row of the opcode table (30_encoding.md R69, R70, R88).
The nine toy-ISA rows carry their header fields and `trail`, the bytes of the window that follow the
header: the immediate words first (R81), then bytes that are not read (R161). Log entry 10. -/
inductive Instr where
  | size
  | read (start stop : Nat)
  | write (addr : Nat) (data : List Byte)
  | find (addr : Nat)
  | addSpace (offset : Nat) (space : Space)
  | scanLoad (window : List Byte)
  | peekBit
  | nextBit
  | collect (w : BitVec 7) (t : BitVec 2)
  | collectType (t : BitVec 2)
  | isAligned (n : BitVec 2)
  | bitsLeft
  | atLeast (n : Nat)
  | decode (window : List Byte)
  | newDense (size : Nat)
  | newZero (size : Nat)
  | newRom (size : Nat)
  | romLoad (rom : Dense) (addr : Nat) (data : List Byte)
  | newSparse (total : Nat)
  | sparseAdd (parent : Composite) (offset : Nat) (sub : Space)
  | hdrFmt000 (op : BitVec 4) (out r1 r2 : RegCode) (trail : List Byte)
  | hdrFmt001 (op : BitVec 4) (out r1 r2 : RegCode) (trail : List Byte)
  | hdrFmt010 (op : BitVec 4) (out r1 r2 : RegCode) (trail : List Byte)
  | hdrFmt011 (op : BitVec 4) (out r1 r2 : RegCode) (trail : List Byte)
  | hdrFmt100 (op : BitVec 4) (out r1 r2 : RegCode) (trail : List Byte)
  | hdrFmt101 (op : BitVec 4) (out r1 r2 : RegCode) (trail : List Byte)
  | hdrFmt110 (op : BitVec 4) (out r1 r2 : RegCode) (trail : List Byte)
  | hdrFmt111 (op : BitVec 4) (out r1 r2 : RegCode) (trail : List Byte)
  | mov (out : RegCode) (fmt : BitVec 3) (r1 r2 : RegCode) (trail : List Byte)
deriving DecidableEq, Repr

/-- A command record `(cmd, operands)` (R68). Operands are not packed into a word: each field of a
fixed kind has a lane of its own, and a command reads the lanes its row of R69 or R70 names. A lane
that a command does not read is ignored. Log entry 7. -/
structure Record where
  /-- The 5-bit command code. -/
  cmd : BitVec 5
  /-- The first Address operand (start, addr, offset, size, total). -/
  addrA : Nat
  /-- The second Address operand (end of READ). -/
  addrB : Nat
  /-- The bytes operand (data, window). -/
  bytes : List Byte
  /-- The Space operand (space of ADD_SPACE, sub of SPARSE_ADD). -/
  space : Space
  /-- The ROM operand of ROM_LOAD, given by its inner Dense value. -/
  rom : Dense
  /-- The parent operand of SPARSE_ADD. -/
  parent : Composite
  /-- The width operand of COLLECT. -/
  w : BitVec 7
  /-- The target type code of COLLECT and COLLECT_TYPE. -/
  t : BitVec 2
  /-- The operand of IS_ALIGNED. -/
  n : BitVec 2
  /-- The natural-number operand of AT_LEAST. -/
  count : Nat
deriving DecidableEq, Repr

/-- The record of a command code with every operand bit zero. -/
def Record.ofCode (cmd : BitVec 5) : Record :=
  { cmd := cmd, addrA := 0, addrB := 0, bytes := [], space := .dense ⟨0, []⟩, rom := ⟨0, []⟩
    parent := ⟨0, .nil⟩, w := 0, t := 0, n := 0, count := 0 }

/-- How an instruction reaches the machine. Log entries 7, 8 and 10. -/
inductive Request where
  /-- A command record at the block's port; a constructor's code is refused there (R71). -/
  | port (r : Record)
  /-- An entry of the host's command log (R70): a constructor the host runs off the block, or a
  port command that the host issues. -/
  | host (r : Record)
  /-- A toy-ISA instruction that the requester hands over as the window of a DECODE (R88). -/
  | insn (window : List Byte)
deriving DecidableEq, Repr

/-- One input of the machine: the interactions of 70_reset_and_hazards.md R197. -/
inductive Input where
  /-- The host applies reset. -/
  | reset
  /-- The requester or the host issues a request. -/
  | request (r : Request)
deriving DecidableEq, Repr

end Sys2Proof
end

