-- ==== Sys2Proof/Machine/State.lean ====
section
/-! DEFINITION. The outcomes of a command, the values a response carries, the machine's state and its
reset. -/

namespace Sys2Proof.Machine

/-- The registers the toy-ISA codes name (30_encoding.md R78). They belong to the CPU core (R21). -/
inductive Register where
  | none
  | r1
  | r2
  | r3
  | r4
  | sp
  | ip
  | flags
deriving DecidableEq, Repr

/-- A decoded operand (R79): an immediate, a register's value, or memory at a register's address. -/
inductive Operand where
  | const (imm : Imm)
  | raw (r : Register)
  | ind (r : Register)
deriving DecidableEq, Repr

/-- What DECODE delivers (R92); `length` is in bytes (42_decoder.md R160). -/
structure DecodedInstruction where
  opcode : Opcode
  out : Register
  fmt : BitVec 3
  op1 : Operand
  op2 : Operand
  length : Nat
deriving DecidableEq, Repr

/-- The error kinds (60_exceptions.md R166). -/
inductive ErrKind where
  | outOfBounds
  | invalidAccess
  | readOnly
  | overflow
  | underflow
  | overlap
  | exhausted
  | invalidOpcode
deriving DecidableEq, Repr

/-- The defects, failed invariant assertions (R172). -/
inductive Defect where
  | translationUnderflow
  | headerMisaligned
  | instructionMisaligned
deriving DecidableEq, Repr

/-- The reasons of a `REFUSED` outcome (R173). -/
inductive RefusedReason where
  | unknownCommand
  | widthExceedsTarget
  | windowTooLong
  | tableFull
deriving DecidableEq, Repr

/-- The four outcomes of a command or of an operation inside one (00_scope.md R5). -/
inductive Reply (α : Type) where
  | ok (a : α)
  | err (k : ErrKind)
  | fault (d : Defect)
  | refused (q : RefusedReason)
deriving DecidableEq, Repr

/-- The values of an `OK` response (30_encoding.md R69, R70). -/
inductive Value where
  /-- WRITE and SCAN_LOAD answer no value. -/
  | unit
  /-- SIZE. -/
  | total (n : Nat)
  /-- READ. -/
  | data (bytes : List Byte)
  /-- FIND with `hit = 0`. -/
  | miss
  /-- FIND with `hit = 1`. -/
  | hit (index : Nat) (offset size : Nat) (kind : Kind)
  /-- ADD_SPACE: the sorted slot. -/
  | index (k : Nat)
  /-- PEEK_BIT and NEXT_BIT. -/
  | bit (b : Bool)
  /-- COLLECT and COLLECT_TYPE: the field, zero-extended to 64 bits. -/
  | field (v : BitVec 64)
  /-- IS_ALIGNED. -/
  | aligned (b : Bool)
  /-- BITS_LEFT. -/
  | count (n : Nat)
  /-- AT_LEAST. -/
  | enough (b : Bool)
  /-- DECODE. -/
  | insn (d : DecodedInstruction)
  /-- NEW_DENSE, NEW_ZERO, NEW_ROM, ROM_LOAD, NEW_SPARSE: the Space value built. -/
  | space (s : Space)
  /-- SPARSE_ADD: the updated composite and the sorted slot. -/
  | spaceAt (s : Space) (k : Nat)
deriving DecidableEq, Repr

/-- A response: one of the four outcomes, with values only where it is `OK` (R5, R68). -/
abbrev Response := Reply Value

/-- A cursor over a byte window: the scanner unit's state, and the decoder's private cursor
(10_state.md R36, 42_decoder.md R151). -/
structure Cursor where
  window : List Byte
  pos : Nat
deriving DecidableEq, Repr

/-- The state. The first four fields are the spec's tuple `S` (10_state.md R20); the last two are the
model's own (log entries 5 and 6). -/
structure State where
  /-- The root composite (R20, R29). -/
  root : Composite
  /-- The scanner unit (R36). -/
  scan : Cursor
  /-- The defect that stopped the block, if one did (R40). -/
  stopped : Option Defect
  /-- The refused mark (R40). -/
  refused : Bool
  /-- The model's own: inputs that have arrived and have not been taken, the next one first. -/
  inbox : List Input
  /-- The model's own: the response of the last command, as the requester received it (R23: no
  command reads it). -/
  response : Option Response
deriving DecidableEq, Repr

/-- Why the machine stops. -/
inductive Fault where
  /-- Raised by every port command and by the idle step while the block is stopped: while `stopped` is
  not `none` the block has no step (10_state.md R40, 60_exceptions.md R172). Safe: the spec says so. -/
  | blockStopped (d : Defect)
deriving DecidableEq, Repr

/-- Why an instruction has no meaning. -/
inductive Refusal where
  /-- An instruction of the table that the model gives no meaning. Raised by `exec` only, by name; no
  arm does. Safe. -/
  | notModelled (mnemonic : String)
deriving DecidableEq, Repr

/-- The machine right after reset (R42, R185). -/
def State.reset : State :=
  { root := { total := Config.params.rootTotal, entries := .nil }
    scan := { window := [], pos := 0 }
    stopped := none
    refused := false
    inbox := []
    response := none }

end Sys2Proof.Machine
end

