-- ==== Sys2Proof/Machine/Store.lean ====
section
/-! DEFINITION. The shape of Space values and the byte operations on a buffer: what the well-formedness
checks and the router both use. -/

namespace Sys2Proof

/-- `size(s)`, the contract's size (10_state.md R30): of a composite, the declared upper bound. -/
def Space.size : Space → Nat
  | .dense d => d.size
  | .zero n => n
  | .rom d => d.size
  | .sparse t _ => t

/-- The kind of a Space value (R35). -/
def Space.kind : Space → Kind
  | .dense _ => .dense
  | .zero _ => .zero
  | .rom _ => .rom
  | .sparse _ _ => .sparse

/-- The number of entries of a region table. -/
def Regions.count : Regions → Nat
  | .nil => 0
  | .cons _ _ rest => rest.count + 1

/-- A check holds at every entry `(offset, sub)` of a region table. -/
def Regions.all (f : Nat → Space → Bool) : Regions → Bool
  | .nil => true
  | .cons off sub rest => f off sub && rest.all f

/-- Entry `k` of a region table, counting from 0 in index order (R35). -/
def Regions.get? : Regions → Nat → Option (Nat × Space)
  | .nil, _ => none
  | .cons off sub _, 0 => some (off, sub)
  | .cons _ _ rest, k + 1 => rest.get? k

/-- `overlaps(A, B)` for the ranges `A = [a0, a1)` and `B = [b0, b1)` (R33, 90_conflicts.md C9). -/
def overlaps (a0 a1 b0 b1 : Nat) : Bool :=
  a0 == b0 || (decide (b0 ≤ a0) && decide (a0 < b1)) || (decide (a0 ≤ b0) && decide (b0 < a1))

/-- The byte at index `a` of a buffer: 0 where nothing is listed (R26, R123). -/
def readByte : Memory → Nat → Byte
  | [], _ => 0#8
  | (k, v) :: m, a => if k = a then v else readByte m a

/-- Puts one byte at index `a`, keeping the list rising and free of zero cells. -/
def writeByte : Memory → Nat → Byte → Memory
  | [], a, b => if b = 0#8 then [] else [(a, b)]
  | (k, v) :: m, a, b =>
    if a < k then (if b = 0#8 then (k, v) :: m else (a, b) :: (k, v) :: m)
    else if a = k then (if b = 0#8 then m else (k, b) :: m)
    else (k, v) :: writeByte m a b

/-- The bytes at indices `a` up to `a + n`, lowest first (20_memory.md R45). -/
def readBytes (m : Memory) (a : Nat) : Nat → List Byte
  | 0 => []
  | n + 1 => readByte m a :: readBytes m (a + 1) n

/-- Stores `data[i]` at index `a + i` for every `i` (R45). -/
def writeBytes (m : Memory) (a : Nat) : List Byte → Memory
  | [] => m
  | b :: bs => writeBytes (writeByte m a b) (a + 1) bs

end Sys2Proof
end

