-- ==== Sys2Proof/Machine/Ops.lean ====
section
/-! DEFINITION. The operations the commands share: checked arithmetic, reading and writing Space values,
lookup, registration, bit fields, and the delivery of a command's outcome. -/

namespace Sys2Proof.Machine

/-- Continues with the value of an `OK`; any other outcome passes up unchanged (00_scope.md R16). -/
def Reply.bind {α β : Type} (r : Reply α) (f : α → Reply β) : Reply β :=
  match r with
  | .ok a => f a
  | .err k => .err k
  | .fault d => .fault d
  | .refused q => .refused q

/-- Changes the value of an `OK`. -/
def Reply.map {α β : Type} (f : α → β) (r : Reply α) : Reply β :=
  match r with
  | .ok a => .ok (f a)
  | .err k => .err k
  | .fault d => .fault d
  | .refused q => .refused q

/-! ## Updates of one field of the state -/

/-- The response of a command goes out. -/
def State.respond (s : State) (r : Response) : State := { s with response := some r }

/-- The root composite is replaced. -/
def State.setRoot (s : State) (c : Composite) : State := { s with root := c }

/-- The scanner unit's state is replaced. -/
def State.setScan (s : State) (c : Cursor) : State := { s with scan := c }

/-- `stopped <- d` (60_exceptions.md R172). -/
def State.stop (s : State) (d : Defect) : State := { s with stopped := some d }

/-- `refused <- true` (R173). -/
def State.markRefused (s : State) : State := { s with refused := true }

/-- The inputs still to be taken are replaced. -/
def State.setInbox (s : State) (l : List Input) : State := { s with inbox := l }

/-! ## Checked address arithmetic (00_scope.md R17) -/

/-- `checked_add(a, b)`. -/
def checkedAdd (p : Params) (a b : Nat) : Reply Nat :=
  if a + b ≤ p.maxAddr then .ok (a + b) else .err .overflow

/-- `checked_sub(a, b)`. -/
def checkedSub (a b : Nat) : Reply Nat :=
  if b ≤ a then .ok (a - b) else .err .underflow

/-- `to_addr(n)`. -/
def toAddr (p : Params) (n : Nat) : Reply Nat :=
  if n ≤ p.maxAddr then .ok n else .err .overflow

/-! ## Lookup and translation -/

/-- Address `a` lies in the range of the entry `(off, sub)` (10_state.md R35). -/
def covers (off : Nat) (sub : Space) (a : Nat) : Bool :=
  decide (off ≤ a) && decide (a < off + sub.size)

/-- An entry found, with its index. -/
structure Found where
  index : Nat
  offset : Nat
  sub : Space
deriving DecidableEq, Repr

/-- `find(s, a)` over the entries of `s`: the index and the entry that contains `a`
(40_router.md R110). -/
def find : Regions → Nat → Option Found
  | .nil, _ => none
  | .cons off sub rest, a =>
    if covers off sub a then some ⟨0, off, sub⟩
    else (find rest a).map fun f => { f with index := f.index + 1 }

/-- The three-way comparison of an address with an entry (R111): less, greater, or equal where the
entry contains the address. -/
def compareEntry (a off : Nat) (sub : Space) : Ordering :=
  if a < off then .lt else if off + sub.size ≤ a then .gt else .eq

/-- The search between the indices `lo` and `hi`; `fuel` bounds the rounds. -/
def searchBetween (es : Regions) (a : Nat) : Nat → Nat → Nat → Option Found
  | 0, _, _ => none
  | fuel + 1, lo, hi =>
    if lo < hi then
      match es.get? ((lo + hi) / 2) with
      | none => none
      | some (off, sub) =>
        match compareEntry a off sub with
        | .eq => some ⟨(lo + hi) / 2, off, sub⟩
        | .lt => searchBetween es a fuel lo ((lo + hi) / 2)
        | .gt => searchBetween es a fuel ((lo + hi) / 2 + 1) hi
    else none

/-- The source's binary search (R111). The commands use `find`; R111 says the two agree. -/
def findBinary (es : Regions) (a : Nat) : Option Found :=
  searchBetween es a (es.count + 1) 0 es.count

/-- `translate(e, a)`: a subtraction that underflows is a defect (20_memory.md R62). -/
def translate (off a : Nat) : Reply Nat :=
  match checkedSub a off with
  | .ok l => .ok l
  | _ => .fault .translationUnderflow

/-! ## Reading (40_router.md R94 to R98) -/

/-- Dense read (R95), for a span that is not reversed. -/
def denseRead (d : Dense) (start stop : Nat) : Reply (List Byte) :=
  if stop > d.size then .err .outOfBounds else .ok (readBytes d.bytes start (stop - start))

/-- Zero read (R96), for a span that is not reversed. -/
def zeroRead (n start stop : Nat) : Reply (List Byte) :=
  if stop > n then .err .outOfBounds else .ok (List.replicate (stop - start) 0#8)

mutual

/-- `MemRead(s, start, end)` (R94 to R98): a reversed range first, then the rule of the kind. -/
def memRead : Space → Nat → Nat → Reply (List Byte)
  | .dense d, start, stop => if start > stop then .err .underflow else denseRead d start stop
  | .zero n, start, stop => if start > stop then .err .underflow else zeroRead n start stop
  | .rom d, start, stop => if start > stop then .err .underflow else denseRead d start stop
  | .sparse _ es, start, stop =>
    if start > stop then .err .underflow else readEntries es start stop

/-- The Sparse read (R98), taken at the entry that contains the start address: translate, check that
the whole span fits, delegate. -/
def readEntries : Regions → Nat → Nat → Reply (List Byte)
  | .nil, _, _ => .err .invalidAccess
  | .cons off sub rest, start, stop =>
    if covers off sub start then
      (translate off start).bind fun ls =>
        if stop - off > sub.size then .err .invalidAccess else memRead sub ls (stop - off)
    else readEntries rest start stop

end

/-! ## Writing (R101 to R105) -/

/-- Dense write (R102): all or nothing. -/
def denseWrite (p : Params) (d : Dense) (addr : Nat) (data : List Byte) : Reply Dense :=
  (toAddr p data.length).bind fun k =>
    (checkedAdd p addr k).bind fun e =>
      if e > d.size then .err .outOfBounds
      else .ok { d with bytes := writeBytes d.bytes addr data }

mutual

/-- `MemWrite(s, addr, data)` (R101 to R105): the updated Space value, or the failure. -/
def memWrite (p : Params) : Space → Nat → List Byte → Reply Space
  | .dense d, addr, data => (denseWrite p d addr data).map .dense
  | .zero _, _, _ => .err .readOnly
  | .rom _, _, _ => .err .readOnly
  | .sparse t es, addr, data => (writeEntries p es addr data).map (.sparse t)

/-- The Sparse write (R105), taken at the entry that contains the address: translate, convert the
length, add it, check the fit, delegate, and put the updated sub-space back. -/
def writeEntries (p : Params) : Regions → Nat → List Byte → Reply Regions
  | .nil, _, _ => .err .invalidAccess
  | .cons off sub rest, addr, data =>
    if covers off sub addr then
      (translate off addr).bind fun la =>
        (toAddr p data.length).bind fun k =>
          (checkedAdd p la k).bind fun le =>
            if le > sub.size then .err .invalidAccess
            else (memWrite p sub la data).map fun sub' => .cons off sub' rest
    else (writeEntries p rest addr data).map fun rest' => .cons off sub rest'

end

/-! ## Registration (R114 to R117) -/

/-- Some existing entry overlaps the range `[a0, a1)` (R115). -/
def overlapsAny (a0 a1 : Nat) (es : Regions) : Bool :=
  !es.all fun o s => !overlaps a0 a1 o (o + s.size)

/-- The sorted slot: the number of entries whose offset is below `off` (R116). -/
def sortedSlot (off : Nat) : Regions → Nat
  | .nil => 0
  | .cons o _ rest => (if o < off then 1 else 0) + sortedSlot off rest

/-- `es[0..k) ++ [(off, sub)] ++ es[k..|es|)` (R116). -/
def insertAt (off : Nat) (sub : Space) : Nat → Regions → Regions
  | 0, es => .cons off sub es
  | _ + 1, .nil => .cons off sub .nil
  | k + 1, .cons o s rest => .cons o s (insertAt off sub k rest)

/-- The table has reached a finite `MAX_REGIONS` (R117, R122). -/
def tableFull (p : Params) (es : Regions) : Bool :=
  match p.maxRegions with
  | none => false
  | some m => es.count == m

/-- `add_space(P, off, sub)` (R117): the bound, the overlap, the capacity, then the insertion. -/
def registerSpace (p : Params) (parent : Composite) (off : Nat) (sub : Space) :
    Reply (Composite × Nat) :=
  (checkedAdd p off sub.size).bind fun e =>
    if e > parent.total then .err .overflow
    else if overlapsAny off e parent.entries then .err .overlap
    else if tableFull p parent.entries then .refused .tableFull
    else
      .ok ({ parent with entries := insertAt off sub (sortedSlot off parent.entries) parent.entries },
        sortedSlot off parent.entries)

/-! ## Bit fields (10_state.md R37, 41_scanner.md R132 to R138) -/

/-- `bit(w, i)`: bit 0 of a window is the least-significant bit of byte 0 (R37). -/
def windowBit (w : List Byte) (i : Nat) : Bool := (w.getD (i / 8) 0#8).getLsbD (i % 8)

/-- `field(window, pos, w)`: the sum of `bit(window, pos + i) << i` (R137). -/
def field (window : List Byte) (pos : Nat) : Nat → Nat
  | 0 => 0
  | w + 1 => field window pos w + (windowBit window (pos + w)).toNat <<< w

/-- The whole bytes and the final partial byte of R138's assembly: `need` bits are wanted, `got` of them
stand in `acc`, and `i` is the next byte; `fuel` bounds the rounds. -/
def assembleBytes (window : List Byte) (need : Nat) : Nat → Nat → Nat → Nat → Nat
  | 0, _, acc, _ => acc
  | fuel + 1, i, acc, got =>
    if need - got ≥ 8 then
      assembleBytes window need fuel (i + 1) (acc ||| (window.getD i 0#8).toNat <<< got) (got + 8)
    else if need - got > 0 then
      acc ||| ((window.getD i 0#8).toNat &&& (2 ^ (need - got) - 1)) <<< got
    else acc

/-- The byte-wise assembly of a field (R138). The commands use `field`; R138 says the two agree. -/
def fieldBytewise (window : List Byte) (pos w : Nat) : Nat :=
  if w = 0 then 0
  else if w ≤ 8 - pos % 8 then
    ((window.getD (pos / 8) 0#8).toNat >>> (pos % 8)) &&& (2 ^ w - 1)
  else
    assembleBytes window w (w / 8 + 1) (pos / 8 + 1)
      ((window.getD (pos / 8) 0#8).toNat >>> (pos % 8)) (8 - pos % 8)

/-- `L = 8 * |window|`. -/
def Cursor.bits (c : Cursor) : Nat := 8 * c.window.length

/-- `bits_left` (10_state.md R38). -/
def Cursor.left (c : Cursor) : Nat := c.bits - c.pos

/-- The bit at the cursor, or `Exhausted` (R132). -/
def peekBit (c : Cursor) : Reply Bool :=
  if c.pos ≥ c.bits then .err .exhausted else .ok (windowBit c.window c.pos)

/-- The bit at the cursor, and the cursor past it (R133). -/
def nextBit (c : Cursor) : Reply (Bool × Cursor) :=
  (peekBit c).map fun b => (b, { c with pos := c.pos + 1 })

/-- A field of `w` bits for a target of `target` bits, and the cursor past it (R136). -/
def collect (c : Cursor) (w target : Nat) : Reply (Nat × Cursor) :=
  if w > target then .refused .widthExceedsTarget
  else if w > c.left then .err .exhausted
  else .ok (field c.window c.pos w, { c with pos := c.pos + w })

/-- The cursor sits on a boundary of `8 << n` bits, counted from bit 0 of the window (R142, R143). -/
def Cursor.isAligned (c : Cursor) (n : Nat) : Bool := c.pos % (8 <<< n) == 0

/-- A window longer than a finite `MAX_WINDOW_BYTES` (30_encoding.md R72). -/
def windowTooLong (p : Params) (window : List Byte) : Bool :=
  match p.maxWindow with
  | none => false
  | some m => decide (window.length > m)

/-! ## Delivering an outcome (00_scope.md R5, 60_exceptions.md R165 to R175)

The block has no trap to enter and none to return from (R174, R175): what the other families of this
guide do on an exception is here the delivery of one response, with the marks it sets. -/

/-- The state after a command whose outcome is `r`: on `OK` the state the command gives; on `ERR`
the state as it was (R170); on `FAULT` only `stopped` is set (R172); on `REFUSED` only `refused` is
set (R173). In each case the response goes out. -/
def deliver (s : State) (r : Reply (Value × State)) : State :=
  match r with
  | .ok (v, t) => t.respond (.ok v)
  | .err k => s.respond (.err k)
  | .fault d => (s.stop d).respond (.fault d)
  | .refused q => s.markRefused.respond (.refused q)

/-- A port command: it requires `stopped = none` (10_state.md R40), and delivers its outcome. -/
def portCommand (s : State) (r : Reply (Value × State)) : Host.Outcome State Fault Refusal :=
  match s.stopped with
  | some d => .fault (.blockStopped d)
  | none => .next (deliver s r)

/-- A port command that changes no state but for the marks. -/
def portQuery (s : State) (r : Reply Value) : Host.Outcome State Fault Refusal :=
  portCommand s (r.map fun v => (v, s))

/-- A constructor that the host runs: its result goes to the host, and of the block's state it writes
nothing (30_encoding.md R70) but the `refused` mark of a refusal (60_exceptions.md R173). A stopped block has
no step (10_state.md R40): there the host has its result too, and the block keeps all its state, the mark as
well. Log entries 8 and 9. -/
def hostRun (s : State) (r : Reply Value) : Host.Outcome State Fault Refusal :=
  match s.stopped with
  | some _ => .next (s.respond r)
  | none => .next (deliver s (r.map fun v => (v, s)))

end Sys2Proof.Machine
end

