-- ==== Sys2Proof/Machine/Constructors.lean ====
section
/-! DEFINITION. The configuration constructors, host-side pure operations on Space values
(40_router.md section 6). Their results go to the host; sent to the port they are refused (R71), which
the decoder and the step do. -/

namespace Sys2Proof.Machine

/-- NEW_DENSE (R123): `size` zero bytes. -/
def execNewDense (size : Nat) (s : State) : Host.Outcome State Fault Refusal :=
  hostRun s (.ok (.space (.dense ⟨size, []⟩)))

/-- NEW_ZERO (R124). -/
def execNewZero (size : Nat) (s : State) : Host.Outcome State Fault Refusal :=
  hostRun s (.ok (.space (.zero size)))

/-- NEW_ROM (R125): a ROM of `size` zero bytes. -/
def execNewRom (size : Nat) (s : State) : Host.Outcome State Fault Refusal :=
  hostRun s (.ok (.space (.rom ⟨size, []⟩)))

/-- ROM_LOAD over any parameters (R126): a Dense write on the ROM's inner value. -/
def romLoad (p : Params) (rom : Dense) (addr : Nat) (data : List Byte) : Reply Value :=
  (denseWrite p rom addr data).map fun d => .space (.rom d)

/-- ROM_LOAD (R126). -/
def execRomLoad (rom : Dense) (addr : Nat) (data : List Byte) (s : State) :
    Host.Outcome State Fault Refusal :=
  hostRun s (romLoad Config.params rom addr data)

/-- NEW_SPARSE (R128): an empty composite. -/
def execNewSparse (total : Nat) (s : State) : Host.Outcome State Fault Refusal :=
  hostRun s (.ok (.space (.sparse total .nil)))

/-- SPARSE_ADD over any parameters (R129): registration into an unregistered composite. -/
def sparseAdd (p : Params) (parent : Composite) (offset : Nat) (sub : Space) : Reply Value :=
  (registerSpace p parent offset sub).map fun (c, k) => .spaceAt c.toSpace k

/-- SPARSE_ADD (R129). -/
def execSparseAdd (parent : Composite) (offset : Nat) (sub : Space) (s : State) :
    Host.Outcome State Fault Refusal :=
  hostRun s (sparseAdd Config.params parent offset sub)

end Sys2Proof.Machine
end

