-- ==== Sys2Proof/WellFormed.lean ====
section
/-! DEFINITION. What a memory, a Space value, an instruction and an input must satisfy: the invariants
of 10_state.md R26 and R31 to R33, and the operand limits of 30_encoding.md R68, R71 and R72. -/

namespace Sys2Proof

/-- The canonical form of a buffer's contents: indices strictly rising, no cell holding 0 (what an
unlisted index reads as). Equal contents are then equal lists. -/
def Memory.wf : Memory → Bool
  | [] => true
  | (k, v) :: m => v != 0#8 && m.all (fun c => decide (k < c.1)) && Memory.wf m

/-- A Dense value: an Address as size, and bytes only below it (R26). -/
def Dense.wf (p : Params) (d : Dense) : Bool :=
  decide (d.size ≤ p.maxAddr) && Memory.wf d.bytes && d.bytes.all (fun c => decide (c.1 < d.size))

/-- A region table holds at most `MAX_REGIONS` entries (00_scope.md R13). -/
def Params.tableFits (p : Params) (n : Nat) : Bool :=
  match p.maxRegions with
  | none => true
  | some m => decide (n ≤ m)

mutual

/-- The invariants of a Space value, at every level of nesting (R26 to R29, R31 to R33, R13). -/
def Space.wf (p : Params) : Space → Bool
  | .dense d => d.wf p
  | .zero n => decide (n ≤ p.maxAddr)
  | .rom d => d.wf p
  | .sparse t es => decide (t ≤ p.maxAddr) && p.tableFits es.count && Regions.wf p t es

/-- The invariants of the entries of a composite of declared size `total`: containment (R32), and
against every later entry sorted order (R31) and disjointness (R33). -/
def Regions.wf (p : Params) (total : Nat) : Regions → Bool
  | .nil => true
  | .cons off sub rest =>
    Space.wf p sub && decide (off + sub.size ≤ total)
      && rest.all (fun o s => decide (off < o) && !overlaps off (off + sub.size) o (o + s.size))
      && Regions.wf p total rest

end

/-- The invariants of a composite. -/
def Composite.wf (p : Params) (c : Composite) : Bool := c.toSpace.wf p

mutual

/-- No Dense value in the Space holds a byte that is not 0, at any level of nesting. So the constructors
build a Space: a Dense value is created zero-filled (40_router.md R123), and ROM_LOAD alone writes a byte
before registration, into a ROM (R126). WRITE reaches a Dense value only in the root (20_memory.md R63). -/
def Space.unwritten : Space → Bool
  | .dense d => d.bytes.isEmpty
  | .zero _ => true
  | .rom _ => true
  | .sparse _ es => es.unwritten

/-- The same for the entries of a composite. -/
def Regions.unwritten : Regions → Bool
  | .nil => true
  | .cons _ sub rest => sub.unwritten && rest.unwritten

end

/-- A Space value that the constructors can build, which is all that a Space operand can be
(30_encoding.md R71): its invariants hold, and no Dense value in it has been written. -/
def Space.built (p : Params) (sp : Space) : Bool := sp.wf p && sp.unwritten

/-- An Address operand is below `2^AW` (R72). -/
def Params.isAddr (p : Params) (a : Nat) : Bool := decide (a ≤ p.maxAddr)

/-- An instruction as its encoding admits it: Address operands are Addresses (R72), Space operands
were built by the constructors (R71, R118), and a toy header with opcode 1 is named Mov (log entry 10). -/
def Instr.wf (p : Params) : Instr → Bool
  | .size => true
  | .read start stop => p.isAddr start && p.isAddr stop
  | .write addr _ => p.isAddr addr
  | .find addr => p.isAddr addr
  | .addSpace offset space => p.isAddr offset && space.built p
  | .scanLoad _ => true
  | .peekBit => true
  | .nextBit => true
  | .collect _ _ => true
  | .collectType _ => true
  | .isAligned _ => true
  | .bitsLeft => true
  | .atLeast _ => true
  | .decode _ => true
  | .newDense n => p.isAddr n
  | .newZero n => p.isAddr n
  | .newRom n => p.isAddr n
  | .romLoad rom addr _ => rom.wf p && p.isAddr addr
  | .newSparse total => p.isAddr total
  | .sparseAdd parent offset sub => parent.toSpace.built p && p.isAddr offset && sub.built p
  | .hdrFmt000 op _ _ _ _ => op != 1#4
  | .hdrFmt001 op _ _ _ _ => op != 1#4
  | .hdrFmt010 op _ _ _ _ => op != 1#4
  | .hdrFmt011 op _ _ _ _ => op != 1#4
  | .hdrFmt100 op _ _ _ _ => op != 1#4
  | .hdrFmt101 op _ _ _ _ => op != 1#4
  | .hdrFmt110 op _ _ _ _ => op != 1#4
  | .hdrFmt111 op _ _ _ _ => op != 1#4
  | .mov _ _ _ _ _ => true

/-- Every lane of a record holds a value that its field can carry (R68, R71, R72). -/
def Record.wf (p : Params) (r : Record) : Bool :=
  p.isAddr r.addrA && p.isAddr r.addrB && r.space.built p && r.rom.wf p && r.parent.toSpace.built p

/-- An input that a requester or a host can supply (R71, R72). -/
def Input.wf (p : Params) : Input → Bool
  | .reset => true
  | .request (.port r) => r.wf p
  | .request (.host r) => r.wf p
  | .request (.insn _) => true

end Sys2Proof
end

