-- ==== Sys2Proof/Decode.lean ====
section
/-! DEFINITION. The decoder from requests to instructions, total and rejecting by name, and after it the
encoder, both from the tables of 30_encoding.md (R69, R70, R74, R75, R86). -/

namespace Sys2Proof

/-- Why a request is no instruction. -/
inductive DecodeError where
  /-- A reserved code, or a constructor's code at the port (R71): the block answers
  `REFUSED(UnknownCommand)`. -/
  | unknownCommand (cmd : BitVec 5)
  /-- A window with fewer bytes than a header: DECODE answers `ERR(Exhausted)` (R84, R153). -/
  | shortHeader
deriving DecidableEq, Repr

/-- The constructor codes are 0x18 to 0x1D (R70). -/
def isConstructorCode (cmd : BitVec 5) : Bool := decide (0x18 ≤ cmd.toNat) && decide (cmd.toNat ≤ 0x1D)

/-- The commands and constructors by code, each reading the lanes of its operands (R69, R70). -/
def decodeRecord (r : Record) : Except DecodeError Instr :=
  match r.cmd.toNat with
  | 0x00 => .ok .size
  | 0x01 => .ok (.read r.addrA r.addrB)
  | 0x02 => .ok (.write r.addrA r.bytes)
  | 0x03 => .ok (.find r.addrA)
  | 0x04 => .ok (.addSpace r.addrA r.space)
  | 0x08 => .ok (.scanLoad r.bytes)
  | 0x09 => .ok .peekBit
  | 0x0A => .ok .nextBit
  | 0x0B => .ok (.collect r.w r.t)
  | 0x0C => .ok (.collectType r.t)
  | 0x0D => .ok (.isAligned r.n)
  | 0x0E => .ok .bitsLeft
  | 0x0F => .ok (.atLeast r.count)
  | 0x10 => .ok (.decode r.bytes)
  | 0x18 => .ok (.newDense r.addrA)
  | 0x19 => .ok (.newZero r.addrA)
  | 0x1A => .ok (.newRom r.addrA)
  | 0x1B => .ok (.romLoad r.rom r.addrA r.bytes)
  | 0x1C => .ok (.newSparse r.addrA)
  | 0x1D => .ok (.sparseAdd r.parent r.addrA r.space)
  | _ => .error (.unknownCommand r.cmd)

/-- The header as a little-endian word, `H = b0 | (b1 << 8)` (R74). -/
def headerWord (b0 b1 : Byte) : BitVec 16 := b1 ++ b0

/-- Field `op`, `H[3:0]` (R74). -/
def hdrOp (h : BitVec 16) : BitVec 4 := h.extractLsb' 0 4

/-- Field `out`, `H[6:4]` (R74). -/
def hdrOut (h : BitVec 16) : RegCode := h.extractLsb' 4 3

/-- Field `fmt`, `H[9:7]` (R74). -/
def hdrFmt (h : BitVec 16) : BitVec 3 := h.extractLsb' 7 3

/-- Field `r1`, `H[12:10]` (R74). -/
def hdrR1 (h : BitVec 16) : RegCode := h.extractLsb' 10 3

/-- Field `r2`, `H[15:13]` (R74). -/
def hdrR2 (h : BitVec 16) : RegCode := h.extractLsb' 13 3

/-- The row of a toy-ISA header: Mov where the opcode is 1, else the row of its format code. -/
def decodeHeaderRow (h : BitVec 16) (trail : List Byte) : Instr :=
  if hdrOp h = 1#4 then .mov (hdrOut h) (hdrFmt h) (hdrR1 h) (hdrR2 h) trail
  else
    match (hdrFmt h).toNat with
    | 0 => .hdrFmt000 (hdrOp h) (hdrOut h) (hdrR1 h) (hdrR2 h) trail
    | 1 => .hdrFmt001 (hdrOp h) (hdrOut h) (hdrR1 h) (hdrR2 h) trail
    | 2 => .hdrFmt010 (hdrOp h) (hdrOut h) (hdrR1 h) (hdrR2 h) trail
    | 3 => .hdrFmt011 (hdrOp h) (hdrOut h) (hdrR1 h) (hdrR2 h) trail
    | 4 => .hdrFmt100 (hdrOp h) (hdrOut h) (hdrR1 h) (hdrR2 h) trail
    | 5 => .hdrFmt101 (hdrOp h) (hdrOut h) (hdrR1 h) (hdrR2 h) trail
    | 6 => .hdrFmt110 (hdrOp h) (hdrOut h) (hdrR1 h) (hdrR2 h) trail
    | _ => .hdrFmt111 (hdrOp h) (hdrOut h) (hdrR1 h) (hdrR2 h) trail

/-- A window of toy-ISA bytes: the first two are the header (R73); every header has a row (R84). -/
def decodeInsn : List Byte → Except DecodeError Instr
  | b0 :: b1 :: trail => .ok (decodeHeaderRow (headerWord b0 b1) trail)
  | _ => .error .shortHeader

/-- The decoder. -/
def decode : Request → Except DecodeError Instr
  | .port r => if isConstructorCode r.cmd then .error (.unknownCommand r.cmd) else decodeRecord r
  | .host r => decodeRecord r
  | .insn window => decodeInsn window

/-- The header word of five fields (R86). -/
def headerOf (op : BitVec 4) (out : RegCode) (fmt : BitVec 3) (r1 r2 : RegCode) : BitVec 16 :=
  op.setWidth 16 ||| out.setWidth 16 <<< 4 ||| fmt.setWidth 16 <<< 7 ||| r1.setWidth 16 <<< 10
    ||| r2.setWidth 16 <<< 13

/-- A 16-bit word as its two bytes, the low byte first (R80, R86). -/
def wordBytes (h : BitVec 16) : List Byte := [h.extractLsb' 0 8, h.extractLsb' 8 8]

/-- The bytes of a header (R86). -/
def headerBytes (op : BitVec 4) (out : RegCode) (fmt : BitVec 3) (r1 r2 : RegCode) : List Byte :=
  wordBytes (headerOf op out fmt r1 r2)

/-- `encode(op, out, fmt, r1, r2, imms)` of R86 and R164: the header, then the immediate words. -/
def encodeInsn (op : BitVec 4) (out : RegCode) (fmt : BitVec 3) (r1 r2 : RegCode)
    (imms : List Imm) : List Byte :=
  headerBytes op out fmt r1 r2 ++ imms.flatMap wordBytes

/-- The encoder: the request that carries an instruction, unused lanes zero. -/
def encode : Instr → Request
  | .size => .port (Record.ofCode 0x00)
  | .read start stop => .port { Record.ofCode 0x01 with addrA := start, addrB := stop }
  | .write addr data => .port { Record.ofCode 0x02 with addrA := addr, bytes := data }
  | .find addr => .port { Record.ofCode 0x03 with addrA := addr }
  | .addSpace offset space => .port { Record.ofCode 0x04 with addrA := offset, space := space }
  | .scanLoad window => .port { Record.ofCode 0x08 with bytes := window }
  | .peekBit => .port (Record.ofCode 0x09)
  | .nextBit => .port (Record.ofCode 0x0A)
  | .collect w t => .port { Record.ofCode 0x0B with w := w, t := t }
  | .collectType t => .port { Record.ofCode 0x0C with t := t }
  | .isAligned n => .port { Record.ofCode 0x0D with n := n }
  | .bitsLeft => .port (Record.ofCode 0x0E)
  | .atLeast n => .port { Record.ofCode 0x0F with count := n }
  | .decode window => .port { Record.ofCode 0x10 with bytes := window }
  | .newDense size => .host { Record.ofCode 0x18 with addrA := size }
  | .newZero size => .host { Record.ofCode 0x19 with addrA := size }
  | .newRom size => .host { Record.ofCode 0x1A with addrA := size }
  | .romLoad rom addr data => .host { Record.ofCode 0x1B with rom := rom, addrA := addr, bytes := data }
  | .newSparse total => .host { Record.ofCode 0x1C with addrA := total }
  | .sparseAdd parent offset sub =>
    .host { Record.ofCode 0x1D with parent := parent, addrA := offset, space := sub }
  | .hdrFmt000 op out r1 r2 trail => .insn (headerBytes op out 0#3 r1 r2 ++ trail)
  | .hdrFmt001 op out r1 r2 trail => .insn (headerBytes op out 1#3 r1 r2 ++ trail)
  | .hdrFmt010 op out r1 r2 trail => .insn (headerBytes op out 2#3 r1 r2 ++ trail)
  | .hdrFmt011 op out r1 r2 trail => .insn (headerBytes op out 3#3 r1 r2 ++ trail)
  | .hdrFmt100 op out r1 r2 trail => .insn (headerBytes op out 4#3 r1 r2 ++ trail)
  | .hdrFmt101 op out r1 r2 trail => .insn (headerBytes op out 5#3 r1 r2 ++ trail)
  | .hdrFmt110 op out r1 r2 trail => .insn (headerBytes op out 6#3 r1 r2 ++ trail)
  | .hdrFmt111 op out r1 r2 trail => .insn (headerBytes op out 7#3 r1 r2 ++ trail)
  | .mov out fmt r1 r2 trail => .insn (headerBytes 1#4 out fmt r1 r2 ++ trail)

/-- The request that a word of the opcode table stands for, operands zero: a row of at most 8 bits is
an entry of the command log (mask 0x1F), a longer one a toy header followed by zero bytes up to the
longest instruction, 6 bytes (R73). Log entry 18. -/
def tableRequest (nbits w : Nat) : Request :=
  if nbits ≤ 8 then .host (Record.ofCode (BitVec.ofNat 5 w))
  else
    .insn [BitVec.ofNat 8 w, BitVec.ofNat 8 (w >>> 8), BitVec.ofNat 8 (w >>> 16),
      BitVec.ofNat 8 (w >>> 24), BitVec.ofNat 8 (w >>> 32), BitVec.ofNat 8 (w >>> 40)]

/-- The instruction the decoder reads from a word of the opcode table. -/
def decodeTableWord (nbits w : Nat) : Option Instr := (decode (tableRequest nbits w)).toOption

end Sys2Proof
end

