-- ==== Sys2Proof/Machine/Operands.lean ====
section
/-! DEFINITION. Operand forms: register codes, operand sources, target types, and the DECODE state
machine that assembles them (30_encoding.md section 3, 42_decoder.md). -/

namespace Sys2Proof.Machine

/-- `reg(c)` (R78). -/
def reg (c : RegCode) : Register :=
  match c.toNat with
  | 0 => .none
  | 1 => .r1
  | 2 => .r2
  | 3 => .r3
  | 4 => .r4
  | 5 => .sp
  | 6 => .ip
  | _ => .flags

/-- `operand(src, r, imm)` (R79, 42_decoder.md R152). -/
def operand (src : OperandSource) (r : RegCode) (imm : Imm) : Operand :=
  match src with
  | .const => .const imm
  | .raw => .raw (reg r)
  | .ind => .ind (reg r)

/-- One immediate word where the source is an immediate (R77). -/
def immCount (src : OperandSource) : Nat :=
  match src with
  | .const => 1
  | .raw => 0
  | .ind => 0

/-- `nimm(fmt)` (R77). -/
def nimm (p : Params) (fmt : BitVec 3) : Nat :=
  immCount (p.formatTable fmt).1 + immCount (p.formatTable fmt).2

/-- `len(fmt)`, in bytes (R82). -/
def insnLength (p : Params) (fmt : BitVec 3) : Nat := 2 + 2 * nimm p fmt

/-- The width of the target type of code `t`, `8 << t` bits (00_scope.md R14). -/
def targetBits (t : BitVec 2) : Nat := 8 <<< t.toNat

/-- The five header fields (R74). -/
structure Header where
  op : BitVec 4
  out : RegCode
  fmt : BitVec 3
  r1 : RegCode
  r2 : RegCode
deriving DecidableEq, Repr

/-- The Header state: five fields off the cursor, each into a `u16` target (R153). -/
def collectHeader (c : Cursor) : Reply (Header × Cursor) :=
  (collect c 4 16).bind fun (op, c) =>
    (collect c 3 16).bind fun (out, c) =>
      (collect c 3 16).bind fun (fmt, c) =>
        (collect c 3 16).bind fun (r1, c) =>
          (collect c 3 16).bind fun (r2, c) =>
            .ok (⟨BitVec.ofNat 4 op, BitVec.ofNat 3 out, BitVec.ofNat 3 fmt, BitVec.ofNat 3 r1,
              BitVec.ofNat 3 r2⟩, c)

/-- An immediate state: one 16-bit field where the source is an immediate, nothing otherwise
(R156, R157). -/
def collectImm (src : OperandSource) (c : Cursor) : Reply (Imm × Cursor) :=
  match src with
  | .const => (collect c 16 16).map fun (i, c) => (BitVec.ofNat 16 i, c)
  | .raw => .ok (0#16, c)
  | .ind => .ok (0#16, c)

/-- The immediate states and the final assertion, after the opcode is mapped (R156 to R158, R160). -/
def collectOperands (p : Params) (tag : Opcode) (h : Header) (c : Cursor) :
    Reply DecodedInstruction :=
  (collectImm (p.formatTable h.fmt).1 c).bind fun (i1, c) =>
    (collectImm (p.formatTable h.fmt).2 c).bind fun (i2, c) =>
      if c.pos % 16 ≠ 0 then .fault .instructionMisaligned
      else
        .ok { opcode := tag, out := reg h.out, fmt := h.fmt
              op1 := operand (p.formatTable h.fmt).1 h.r1 i1
              op2 := operand (p.formatTable h.fmt).2 h.r2 i2
              length := c.pos / 8 }

/-- DECODE of a window (R152): window refusal, header, header assertion, opcode map, immediates, final
assertion. -/
def decodeWindow (p : Params) (window : List Byte) : Reply DecodedInstruction :=
  if windowTooLong p window then .refused .windowTooLong
  else
    (collectHeader ⟨window, 0⟩).bind fun (h, c) =>
      if c.pos % 8 ≠ 0 then .fault .headerMisaligned
      else
        match p.opcodeMap h.op with
        | none => .err .invalidOpcode
        | some tag => collectOperands p tag h c

end Sys2Proof.Machine
end

