-- ==== Sys2Proof/Machine/Decoder.lean ====
section
/-! DEFINITION. DECODE (42_decoder.md), and the toy-ISA rows, whose semantics are DECODE of the
instruction's bytes (30_encoding.md R88). -/

namespace Sys2Proof.Machine

/-- DECODE as a port command: it changes no state (R163). -/
def decodeCommand (p : Params) (window : List Byte) (s : State) :
    Host.Outcome State Fault Refusal :=
  portQuery s ((decodeWindow p window).map .insn)

/-- DECODE (R152). -/
def execDecode (window : List Byte) (s : State) : Host.Outcome State Fault Refusal :=
  decodeCommand Config.params window s

/-- A toy header of format code 000: DECODE of its bytes (R88, R152). -/
def execHdrFmt000 (op : BitVec 4) (out r1 r2 : RegCode) (trail : List Byte) (s : State) :
    Host.Outcome State Fault Refusal :=
  decodeCommand Config.params (headerBytes op out 0#3 r1 r2 ++ trail) s

/-- A toy header of format code 001: DECODE of its bytes (R88, R152). -/
def execHdrFmt001 (op : BitVec 4) (out r1 r2 : RegCode) (trail : List Byte) (s : State) :
    Host.Outcome State Fault Refusal :=
  decodeCommand Config.params (headerBytes op out 1#3 r1 r2 ++ trail) s

/-- A toy header of format code 010, `(RAW, CONST)`: DECODE of its bytes (R88, R152). -/
def execHdrFmt010 (op : BitVec 4) (out r1 r2 : RegCode) (trail : List Byte) (s : State) :
    Host.Outcome State Fault Refusal :=
  decodeCommand Config.params (headerBytes op out 2#3 r1 r2 ++ trail) s

/-- A toy header of format code 011: DECODE of its bytes (R88, R152). -/
def execHdrFmt011 (op : BitVec 4) (out r1 r2 : RegCode) (trail : List Byte) (s : State) :
    Host.Outcome State Fault Refusal :=
  decodeCommand Config.params (headerBytes op out 3#3 r1 r2 ++ trail) s

/-- A toy header of format code 100: DECODE of its bytes (R88, R152). -/
def execHdrFmt100 (op : BitVec 4) (out r1 r2 : RegCode) (trail : List Byte) (s : State) :
    Host.Outcome State Fault Refusal :=
  decodeCommand Config.params (headerBytes op out 4#3 r1 r2 ++ trail) s

/-- A toy header of format code 101: DECODE of its bytes (R88, R152). -/
def execHdrFmt101 (op : BitVec 4) (out r1 r2 : RegCode) (trail : List Byte) (s : State) :
    Host.Outcome State Fault Refusal :=
  decodeCommand Config.params (headerBytes op out 5#3 r1 r2 ++ trail) s

/-- A toy header of format code 110: DECODE of its bytes (R88, R152). -/
def execHdrFmt110 (op : BitVec 4) (out r1 r2 : RegCode) (trail : List Byte) (s : State) :
    Host.Outcome State Fault Refusal :=
  decodeCommand Config.params (headerBytes op out 6#3 r1 r2 ++ trail) s

/-- A toy header of format code 111: DECODE of its bytes (R88, R152). -/
def execHdrFmt111 (op : BitVec 4) (out r1 r2 : RegCode) (trail : List Byte) (s : State) :
    Host.Outcome State Fault Refusal :=
  decodeCommand Config.params (headerBytes op out 7#3 r1 r2 ++ trail) s

/-- Mov, opcode 1 in any format: DECODE of its bytes (R88, R152). The block does not execute it
(R83). -/
def execMov (out : RegCode) (fmt : BitVec 3) (r1 r2 : RegCode) (trail : List Byte) (s : State) :
    Host.Outcome State Fault Refusal :=
  decodeCommand Config.params (headerBytes 1#4 out fmt r1 r2 ++ trail) s

end Sys2Proof.Machine
end

