-- ==== Sys2Proof/Machine/Router.lean ====
section
/-! DEFINITION. The router commands (40_router.md sections 2 to 5). -/

namespace Sys2Proof.Machine

/-- SIZE (R109). -/
def execSize (s : State) : Host.Outcome State Fault Refusal :=
  portQuery s (.ok (.total s.root.total))

/-- READ (R100). -/
def execRead (start stop : Nat) (s : State) : Host.Outcome State Fault Refusal :=
  portQuery s ((memRead s.root.toSpace start stop).map .data)

/-- WRITE over any parameters (R107): the root is replaced by the updated composite. -/
def writeRoot (p : Params) (addr : Nat) (data : List Byte) (s : State) : Reply (Value × State) :=
  (writeEntries p s.root.entries addr data).map fun es =>
    (.unit, s.setRoot { s.root with entries := es })

/-- WRITE (R107). -/
def execWrite (addr : Nat) (data : List Byte) (s : State) : Host.Outcome State Fault Refusal :=
  portCommand s (writeRoot Config.params addr data s)

/-- The fields FIND reports (R113). -/
def findValue (es : Regions) (addr : Nat) : Value :=
  match find es addr with
  | none => .miss
  | some f => .hit f.index f.offset f.sub.size f.sub.kind

/-- FIND (R113). -/
def execFind (addr : Nat) (s : State) : Host.Outcome State Fault Refusal :=
  portQuery s (.ok (findValue s.root.entries addr))

/-- ADD_SPACE over any parameters (R118). -/
def addToRoot (p : Params) (offset : Nat) (space : Space) (s : State) : Reply (Value × State) :=
  (registerSpace p s.root offset space).map fun (root, k) => (.index k, s.setRoot root)

/-- ADD_SPACE (R118). -/
def execAddSpace (offset : Nat) (space : Space) (s : State) : Host.Outcome State Fault Refusal :=
  portCommand s (addToRoot Config.params offset space s)

end Sys2Proof.Machine
end

