-- ==== Sys2Proof/Machine/Scanner.lean ====
section
/-! DEFINITION. The bit-field extractor commands (41_scanner.md). -/

namespace Sys2Proof.Machine

/-- SCAN_LOAD over any parameters (R131). -/
def loadWindow (p : Params) (window : List Byte) (s : State) : Reply (Value × State) :=
  if windowTooLong p window then .refused .windowTooLong
  else .ok (.unit, s.setScan ⟨window, 0⟩)

/-- SCAN_LOAD (R131). -/
def execScanLoad (window : List Byte) (s : State) : Host.Outcome State Fault Refusal :=
  portCommand s (loadWindow Config.params window s)

/-- PEEK_BIT (R132). -/
def execPeekBit (s : State) : Host.Outcome State Fault Refusal :=
  portQuery s ((peekBit s.scan).map .bit)

/-- NEXT_BIT (R133). -/
def execNextBit (s : State) : Host.Outcome State Fault Refusal :=
  portCommand s ((nextBit s.scan).map fun (b, c) => (.bit b, s.setScan c))

/-- A field of `w` bits off the scanner unit into a target of `target` bits, zero-extended to 64 bits
(R136). -/
def collectScan (w target : Nat) (s : State) : Reply (Value × State) :=
  (collect s.scan w target).map fun (v, c) => (.field (BitVec.ofNat 64 v), s.setScan c)

/-- COLLECT (R136). -/
def execCollect (w : BitVec 7) (t : BitVec 2) (s : State) : Host.Outcome State Fault Refusal :=
  portCommand s (collectScan w.toNat (targetBits t) s)

/-- COLLECT_TYPE (R141). -/
def execCollectType (t : BitVec 2) (s : State) : Host.Outcome State Fault Refusal :=
  portCommand s (collectScan (targetBits t) (targetBits t) s)

/-- IS_ALIGNED (R142). -/
def execIsAligned (n : BitVec 2) (s : State) : Host.Outcome State Fault Refusal :=
  portQuery s (.ok (.aligned (s.scan.isAligned n.toNat)))

/-- BITS_LEFT (R144). -/
def execBitsLeft (s : State) : Host.Outcome State Fault Refusal :=
  portQuery s (.ok (.count s.scan.left))

/-- AT_LEAST (R145). -/
def execAtLeast (n : Nat) (s : State) : Host.Outcome State Fault Refusal :=
  portQuery s (.ok (.enough (decide (s.scan.left ≥ n))))

end Sys2Proof.Machine
end

