-- ==== Sys2Proof/Machine/Dispatch.lean ====
section
/-! DEFINITION. The dispatch from instructions to their meanings, one arm per constructor. -/

namespace Sys2Proof.Machine

def exec (i : Instr) (s : State) : Host.Outcome State Fault Refusal :=
  match i with
  | .size => Sys2Proof.Machine.execSize s
  | .read start stop => Sys2Proof.Machine.execRead start stop s
  | .write addr data => Sys2Proof.Machine.execWrite addr data s
  | .find addr => Sys2Proof.Machine.execFind addr s
  | .addSpace offset space => Sys2Proof.Machine.execAddSpace offset space s
  | .scanLoad window => Sys2Proof.Machine.execScanLoad window s
  | .peekBit => Sys2Proof.Machine.execPeekBit s
  | .nextBit => Sys2Proof.Machine.execNextBit s
  | .collect w t => Sys2Proof.Machine.execCollect w t s
  | .collectType t => Sys2Proof.Machine.execCollectType t s
  | .isAligned n => Sys2Proof.Machine.execIsAligned n s
  | .bitsLeft => Sys2Proof.Machine.execBitsLeft s
  | .atLeast n => Sys2Proof.Machine.execAtLeast n s
  | .decode window => Sys2Proof.Machine.execDecode window s
  | .newDense size => Sys2Proof.Machine.execNewDense size s
  | .newZero size => Sys2Proof.Machine.execNewZero size s
  | .newRom size => Sys2Proof.Machine.execNewRom size s
  | .romLoad rom addr data => Sys2Proof.Machine.execRomLoad rom addr data s
  | .newSparse total => Sys2Proof.Machine.execNewSparse total s
  | .sparseAdd parent offset sub => Sys2Proof.Machine.execSparseAdd parent offset sub s
  | .hdrFmt000 op out r1 r2 trail => Sys2Proof.Machine.execHdrFmt000 op out r1 r2 trail s
  | .hdrFmt001 op out r1 r2 trail => Sys2Proof.Machine.execHdrFmt001 op out r1 r2 trail s
  | .hdrFmt010 op out r1 r2 trail => Sys2Proof.Machine.execHdrFmt010 op out r1 r2 trail s
  | .hdrFmt011 op out r1 r2 trail => Sys2Proof.Machine.execHdrFmt011 op out r1 r2 trail s
  | .hdrFmt100 op out r1 r2 trail => Sys2Proof.Machine.execHdrFmt100 op out r1 r2 trail s
  | .hdrFmt101 op out r1 r2 trail => Sys2Proof.Machine.execHdrFmt101 op out r1 r2 trail s
  | .hdrFmt110 op out r1 r2 trail => Sys2Proof.Machine.execHdrFmt110 op out r1 r2 trail s
  | .hdrFmt111 op out r1 r2 trail => Sys2Proof.Machine.execHdrFmt111 op out r1 r2 trail s
  | .mov out fmt r1 r2 trail => Sys2Proof.Machine.execMov out fmt r1 r2 trail s

end Sys2Proof.Machine
end

