-- ==== Sys2Proof/Machine/Inputs.lean ====
section
/-! DEFINITION. What the step does with an input that is no instruction: reset, a request that the
decoder rejects, and no input at all. -/

namespace Sys2Proof.Machine

/-- Reset (70_reset_and_hazards.md R185): the state of R42. The inputs that have not been taken are the
requester's, and stay. Log entry 15. -/
def applyReset (s : State) : State := State.reset.setInbox s.inbox

/-- A request that is no instruction: `REFUSED(UnknownCommand)` for a code with no meaning at the port
(R71), and DECODE of the window for a window too short to hold a header (R153). -/
def rejectRequest (r : Request) (s : State) : Host.Outcome State Fault Refusal :=
  match r with
  | .port _ => portCommand s (.refused .unknownCommand)
  | .host _ => portCommand s (.refused .unknownCommand)
  | .insn window => decodeCommand Config.params window s

/-- No input: an idle block keeps its state (R184); a stopped block has no step (R40). -/
def idle (s : State) : Host.Outcome State Fault Refusal :=
  match s.stopped with
  | some d => .fault (.blockStopped d)
  | none => .next s

end Sys2Proof.Machine
end

