-- ==== Sys2Proof/Machine/Step.lean ====
section
/-! DEFINITION. One step: the next input is taken and carried out. -/

namespace Sys2Proof.Machine

/-- One step of the machine (00_scope.md R4): it takes one input, and one command is one step. -/
def step (s : State) : Host.Outcome State Fault Refusal :=
  match s.inbox with
  | [] => idle s
  | .reset :: rest => .next (applyReset (s.setInbox rest))
  | .request r :: rest =>
    match decode r with
    | .ok i => exec i (s.setInbox rest)
    | .error _ => rejectRequest r (s.setInbox rest)

/-- The state with the instruction of a table word as the next input (log entries 5 and 18). -/
def State.withFetchWord (s : State) (nbits w : Nat) : State :=
  s.setInbox (.request (tableRequest nbits w) :: s.inbox)

end Sys2Proof.Machine
end

