-- ==== Sys2Proof/Machine/Flags.lean ====
section
/-! DEFINITION. The block has no flags (10_state.md R23). Its only condition indicator is the outcome of
a command; this file gives the codes that a response carries it by (60_exceptions.md R167,
30_encoding.md R69). -/

namespace Sys2Proof.Machine

/-- The status code of an error kind (R167). -/
def errStatus (k : ErrKind) : BitVec 4 :=
  match k with
  | .outOfBounds => 1
  | .invalidAccess => 2
  | .readOnly => 3
  | .overflow => 4
  | .underflow => 5
  | .overlap => 6
  | .exhausted => 7
  | .invalidOpcode => 8

/-- The 4-bit `status` of a response (R167). -/
def statusOf (r : Response) : BitVec 4 :=
  match r with
  | .ok _ => 0
  | .err k => errStatus k
  | .refused _ => 14
  | .fault _ => 15

/-- The sub-code of a response (R167); it is given for `REFUSED` and `FAULT` only. -/
def subCodeOf (r : Response) : Option Nat :=
  match r with
  | .ok _ => none
  | .err _ => none
  | .refused .unknownCommand => some 0
  | .refused .widthExceedsTarget => some 1
  | .refused .windowTooLong => some 2
  | .refused .tableFull => some 3
  | .fault .translationUnderflow => some 0
  | .fault .headerMisaligned => some 1
  | .fault .instructionMisaligned => some 2

/-- The code of a store's kind in a FIND response (R69). -/
def kindCode (k : Kind) : BitVec 2 :=
  match k with
  | .dense => 0
  | .zero => 1
  | .rom => 2
  | .sparse => 3

end Sys2Proof.Machine
end

