-- ==== Sys2Proof/Safety.lean ====
section
/-! DEFINITION. The terms claims use: the state invariant, a run that went wrong, and which store an
address belongs to. -/

namespace Sys2Proof.Machine

/-- The invariant of a state: the root's invariants (10_state.md R31 to R33, R43), the cursor's (R36),
and that every input still to come can be supplied (30_encoding.md R71, R72). -/
def State.Inv (s : State) : Prop :=
  s.root.wf Config.params = true ∧ s.scan.pos ≤ s.scan.bits
    ∧ s.inbox.all (Input.wf Config.params) = true

/-- A run went wrong if its final state is stopped or refused (70_reset_and_hazards.md R196). -/
def State.wentWrong (s : State) : Prop := s.stopped ≠ none ∨ s.refused = true

mutual

/-- The kind of the leaf store that address `a` of a Space value belongs to, through every level of
nesting; none at a gap or past the end (R41, 20_memory.md R58). -/
def leafKindAt : Space → Nat → Option Kind
  | .dense d, a => if a < d.size then some .dense else none
  | .zero n, a => if a < n then some .zero else none
  | .rom d, a => if a < d.size then some .rom else none
  | .sparse _ es, a => leafKindIn es a

/-- The same for the entries of a composite. -/
def leafKindIn : Regions → Nat → Option Kind
  | .nil, _ => none
  | .cons off sub rest, a =>
    if covers off sub a then leafKindAt sub (a - off) else leafKindIn rest a

end

/-- One byte of a Space value: READ of the span `[a, a + 1)`. -/
def byteAt (sp : Space) (a : Nat) : Reply (List Byte) := memRead sp a (a + 1)

/-- What part of the state an instruction may write beside the response and the marks. -/
inductive Writes where
  | nothing
  | root
  | scan
  | host
deriving DecidableEq, Repr

/-- The part each instruction may write: the root by WRITE and ADD_SPACE (40_router.md R107, R118), the
scanner unit by SCAN_LOAD, NEXT_BIT, COLLECT and COLLECT_TYPE (41_scanner.md R148), nothing of the
block by a constructor, which the host runs (30_encoding.md R70). -/
def writes : Instr → Writes
  | .size => .nothing
  | .read _ _ => .nothing
  | .write _ _ => .root
  | .find _ => .nothing
  | .addSpace _ _ => .root
  | .scanLoad _ => .scan
  | .peekBit => .nothing
  | .nextBit => .scan
  | .collect _ _ => .scan
  | .collectType _ => .scan
  | .isAligned _ => .nothing
  | .bitsLeft => .nothing
  | .atLeast _ => .nothing
  | .decode _ => .nothing
  | .newDense _ => .host
  | .newZero _ => .host
  | .newRom _ => .host
  | .romLoad _ _ _ => .host
  | .newSparse _ => .host
  | .sparseAdd _ _ _ => .host
  | .hdrFmt000 _ _ _ _ _ => .nothing
  | .hdrFmt001 _ _ _ _ _ => .nothing
  | .hdrFmt010 _ _ _ _ _ => .nothing
  | .hdrFmt011 _ _ _ _ _ => .nothing
  | .hdrFmt100 _ _ _ _ _ => .nothing
  | .hdrFmt101 _ _ _ _ _ => .nothing
  | .hdrFmt110 _ _ _ _ _ => .nothing
  | .hdrFmt111 _ _ _ _ _ => .nothing
  | .mov _ _ _ _ _ => .nothing

/-- The state after a command that takes a window: REFUSED(WindowTooLong) with its mark where the window is
longer than `MAX_WINDOW_BYTES` (30_encoding.md R72), and else `t`. -/
def windowAnswer (p : Params) (window : List Byte) (s t : State) : State :=
  if windowTooLong p window = true then s.markRefused.respond (.refused .windowTooLong) else t

/-- A space that passes the checks of registration but for the table's capacity (40_router.md R114,
R115): the parent is well formed, whatever its capacity, and the space fits and overlaps no entry. -/
def Addable (p : Params) (parent : Composite) (off : Nat) (sub : Space) : Prop :=
  parent.wf p.uncapped = true ∧ off + sub.size ≤ parent.total
    ∧ ∀ k o e, parent.entries.get? k = some (o, e) →
      overlaps off (off + sub.size) o (o + e.size) = false

/-- The table `es'` is `es` with the entry `(off, sub)` put at its sorted slot `k`: the entries below `k`
stay, those from `k` on move up by one, and those below `k` are the ones whose offset is below `off`
(40_router.md R116). -/
def InsertedAt (es es' : Regions) (off : Nat) (sub : Space) (k : Nat) : Prop :=
  es'.get? k = some (off, sub)
    ∧ (∀ j, j < k → es'.get? j = es.get? j)
    ∧ (∀ j, k ≤ j → es'.get? (j + 1) = es.get? j)
    ∧ ∀ j o e, es.get? j = some (o, e) → (j < k ↔ o < off)

/-- The table `es'` is `es` with the sub-space of entry `k` replaced by `sub'` (40_router.md R105). -/
def ReplacedAt (es es' : Regions) (k off : Nat) (sub' : Space) : Prop :=
  es'.get? k = some (off, sub') ∧ ∀ j, j ≠ k → es'.get? j = es.get? j

/-- Byte `a` of a leaf store (40_router.md R95 to R97). -/
def leafByte : Space → Nat → Byte
  | .dense d, a => readByte d.bytes a
  | .zero _, _ => 0#8
  | .rom d, a => readByte d.bytes a
  | .sparse _ _, _ => 0#8

/-- The little-endian number of a byte sequence (20_memory.md R46). -/
def littleEndian : List Byte → Nat
  | [] => 0
  | b :: bs => b.toNat + 256 * littleEndian bs

/-- The immediate word at bytes `i` and `i + 1`, `c0 | (c1 << 8)` (30_encoding.md R80). -/
def wordAt (bytes : List Byte) (i : Nat) : Imm := bytes.getD (i + 1) 0#8 ++ bytes.getD i 0#8

/-- The instruction that a header and the bytes after it make, by the table of R74 and the assembly of
R77 and R79 to R82, for the opcode tag `tag`. -/
def decodedOf (p : Params) (tag : Opcode) (out : RegCode) (fmt : BitVec 3) (r1 r2 : RegCode)
    (trail : List Byte) : DecodedInstruction :=
  { opcode := tag, out := reg out, fmt := fmt
    op1 := operand (p.formatTable fmt).1 r1 (wordAt trail 0)
    op2 := operand (p.formatTable fmt).2 r2 (wordAt trail (2 * immCount (p.formatTable fmt).1))
    length := insnLength p fmt }

/-- `w` successive NEXT_BIT commands: their bits in order and the state after, none where one of them
fails (41_scanner.md R139). -/
def nextBits : Nat → State → Option (List Bool × State)
  | 0, s => some ([], s)
  | w + 1, s =>
    match exec .nextBit s with
    | .next t =>
      match t.response with
      | some (.ok (.bit b)) => (nextBits w t).map fun r => (b :: r.1, r.2)
      | _ => none
    | _ => none

/-- `sum b_i << i` (R139). -/
def bitsToNat : List Bool → Nat
  | [] => 0
  | b :: bs => b.toNat + 2 * bitsToNat bs

end Sys2Proof.Machine
end

