-- ==== Sys2Proof/Certificates/Slice0/Obligations.lean ====
section
/-! DEFINITION. The statements for the provers, from the numbered rules of spec/. `Config.params` holds the
open parameters, so each statement holds for every instance of the block. -/

open Sys2Proof Sys2Proof.Machine

/-! ## Reset, inputs and steps -/

/-- R42, R186: what reset leaves. -/
def Obligations.ResetStateIsInitial : Prop :=
  State.reset.root = ⟨Config.params.rootTotal, .nil⟩ ∧ State.reset.scan = ⟨[], 0⟩
    ∧ State.reset.stopped = none ∧ State.reset.refused = false

/-- R185: reset puts the block in the state of R42, discarding every space the root held, and no other
input clears a mark. -/
def Obligations.ResetAloneClearsTheMarks : Prop :=
  (∀ (s : State) (rest : List Input), s.inbox = .reset :: rest →
    ∃ t, step s = .next t ∧ t.root = ⟨Config.params.rootTotal, .nil⟩ ∧ t.scan = ⟨[], 0⟩
      ∧ t.stopped = none ∧ t.refused = false)
  ∧ ∀ s t : State, step s = .next t → s.inbox.head? ≠ some .reset →
    (∀ d, s.stopped = some d → t.stopped = some d) ∧ (s.refused = true → t.refused = true)

/-- R4, R184: a step takes one input, the first that has not been taken; with none, an idle block keeps
its state. The inbox and the idle step are the model's (log entry 5). -/
def Obligations.StepTakesOneInput : Prop :=
  (∀ s t : State, step s = .next t → t.inbox = s.inbox.tail)
  ∧ ∀ s : State, s.inbox = [] → s.stopped = none → step s = .next s

/-- A step runs the instruction that the next request decodes to, on the state without that request
(log entry 5). -/
def Obligations.StepRunsDecodedRequest : Prop :=
  ∀ (s : State) (r : Request) (rest : List Input) (i : Instr),
    s.inbox = .request r :: rest → decode r = .ok i → step s = exec i (s.setInbox rest)

/-- R71: a reserved code, and a constructor code at the port, are refused, and the mark is set. -/
def Obligations.MeaninglessCodesAreRefused : Prop :=
  ∀ (s : State) (r : Record) (rest : List Input), s.stopped = none →
    s.inbox = .request (.port r) :: rest →
    r.cmd.toNat ∈ [0x05, 0x06, 0x07, 0x11, 0x12, 0x13, 0x14, 0x15, 0x16, 0x17, 0x1E, 0x1F,
      0x18, 0x19, 0x1A, 0x1B, 0x1C, 0x1D] →
    step s = .next ((s.setInbox rest).markRefused.respond (.refused .unknownCommand))

/-- R40, R172: while the block is stopped no port command, toy instruction or unknown code has a step. A
constructor, which the host runs off the block, still gives the host its result and changes nothing of the
block (log entry 8). -/
def Obligations.StoppedBlockHasNoStep : Prop :=
  ∀ (s : State) (d : Defect), s.stopped = some d →
    (∀ i, writes i ≠ .host → exec i s = .fault (.blockStopped d))
    ∧ (∀ (r : Record) (rest : List Input), s.inbox = .request (.port r) :: rest →
      step s = .fault (.blockStopped d))
    ∧ ∀ i, writes i = .host → ∃ r : Response, exec i s = .next (s.respond r)

/-- R88: a toy-ISA instruction handed to the block is a DECODE of its bytes (log entry 10). -/
def Obligations.ToyInstructionStepsAsDecode : Prop :=
  ∀ (s : State) (window : List Byte) (rest : List Input),
    s.inbox = .request (.insn window) :: rest →
    step s = exec (.decode window) (s.setInbox rest)

/-- R62, R159, R172: no input reaches a defect; an unstopped block always completes its step and stays
unstopped. -/
def Obligations.NoInputReachesADefect : Prop :=
  ∀ s : State, s.stopped = none →
    ∃ t, step s = .next t ∧ t.stopped = none
      ∧ ∀ d, t.response = some (.fault d) → s.response = some (.fault d)

/-! ## What the outcomes do to the state -/

/-- R170: a command that answers ERR leaves the state as it was; reads, FIND, SIZE and DECODE change none
even on success. -/
def Obligations.ErrorsAndQueriesChangeNothing : Prop :=
  (∀ (i : Instr) (s t : State) (k : ErrKind), exec i s = .next t → t.response = some (.err k) →
    t = s.respond (.err k))
  ∧ ∀ (i : Instr) (s t : State) (v : Value), writes i = .nothing → exec i s = .next t →
    t.response = some (.ok v) → t = s.respond (.ok v)

/-- R173: a refused command changes nothing but the mark, and no step but one that takes a reset clears the
mark. That the refusal of a constructor, which the host runs, sets the mark too, where the block is not
stopped, is the model's reading of R173 against R70 (log entry 9). -/
def Obligations.RefusalOnlySetsTheMark : Prop :=
  (∀ (i : Instr) (s t : State) (q : RefusedReason), s.stopped = none → exec i s = .next t →
    t.response = some (.refused q) → t = s.markRefused.respond (.refused q))
  ∧ (∀ (i : Instr) (s t : State) (d : Defect), s.stopped = some d → exec i s = .next t →
    ∃ r, t = s.respond r)
  ∧ ∀ s t : State, step s = .next t → s.inbox.head? ≠ some .reset → s.refused = true → t.refused = true

/-- R23: no command reads the response of an earlier one (the field is the model's, log entry 6). -/
def Obligations.NoCommandReadsTheResponse : Prop :=
  ∀ (i : Instr) (s : State) (r : Response), exec i (s.respond r) = exec i s

/-- R70, R173: a constructor's result is the same on every state, and it writes no block state but, where
the block is not stopped, the mark of a refusal. That it is a step, and its result a response, is the
model's (log entry 8); that its refusal sets the mark is read from R173 (log entry 9). -/
def Obligations.ConstructorsTouchNoBlockState : Prop :=
  ∀ i : Instr, writes i = .host → ∃ r : Response, (∀ d, r ≠ .fault d) ∧ ∀ s : State,
    (s.stopped = none → exec i s = .next
      (match r with
      | .refused q => s.markRefused.respond (.refused q)
      | r => s.respond r))
    ∧ ∀ d, s.stopped = some d → exec i s = .next (s.respond r)

/-- R148: what writes the scanner unit. -/
def Obligations.ScannerWrites : Prop :=
  ∀ (i : Instr) (s t : State), exec i s = .next t →
    (writes i ≠ .scan → t.scan = s.scan)
    ∧ ((∀ w, i ≠ .scanLoad w) → t.scan.window = s.scan.window)
    ∧ ((∀ v, t.response ≠ some (.ok v)) → t.scan = s.scan)

/-- R167: the status codes and sub-codes; 9 to 13 are never returned. -/
def Obligations.StatusCodes : Prop :=
  (∀ v, statusOf (Reply.ok v) = 0)
  ∧ ([ErrKind.outOfBounds, .invalidAccess, .readOnly, .overflow, .underflow, .overlap, .exhausted,
      .invalidOpcode].map fun k => statusOf (Reply.err k)) = [1, 2, 3, 4, 5, 6, 7, 8]
  ∧ (∀ q, statusOf (Reply.refused q) = 14) ∧ (∀ d, statusOf (Reply.fault d) = 15)
  ∧ ([RefusedReason.unknownCommand, .widthExceedsTarget, .windowTooLong, .tableFull].map fun q =>
      subCodeOf (Reply.refused q)) = [some 0, some 1, some 2, some 3]
  ∧ ([Defect.translationUnderflow, .headerMisaligned, .instructionMisaligned].map fun d =>
      subCodeOf (Reply.fault d)) = [some 0, some 1, some 2]
  ∧ (∀ v, subCodeOf (Reply.ok v) = none)
  ∧ (∀ k, subCodeOf (Reply.err k) = none)
  ∧ ∀ r : Response, statusOf r ∉ [9, 10, 11, 12, 13]

/-! ## Invariants -/

/-- R43 at reset. -/
def Obligations.ResetSatisfiesTheInvariant : Prop := State.reset.Inv

/-- R43: every step keeps the invariants of R31, R32, R33 and R36, from every state that has them. -/
def Obligations.StepKeepsTheInvariant : Prop :=
  ∀ s t : State, s.Inv → step s = .next t → t.Inv

/-- R71, R123, R126: a Space value that breaks the invariants cannot be built, and none in which a Dense value
holds a byte that is not 0: every constructor, run on operands that can be supplied, answers a Space value that
can be supplied again, or none. For SPARSE_ADD this is said for every parameters; `exec` runs it at those of
the machine. That a constructor is a step, of a stopped block too, is the model's (log entry 8). -/
def Obligations.ConstructorsBuildWellFormedSpaces : Prop :=
  (∀ (i : Instr) (s t : State), writes i = .host → i.wf Config.params = true → exec i s = .next t →
    ∀ sp, t.response = some (.ok (.space sp)) → sp.built Config.params = true)
  ∧ ∀ (p : Params) (s : State) (parent : Composite) (off : Nat) (sub : Space),
    (∀ sp k, sparseAdd p parent off sub = .ok (.spaceAt sp k) →
      (parent.wf p = true → sub.wf p = true → sp.wf p = true)
      ∧ (parent.toSpace.unwritten = true → sub.unwritten = true → sp.unwritten = true))
    ∧ exec (.sparseAdd parent off sub) s = hostRun s (sparseAdd Config.params parent off sub)

/-- R72: a request that can be supplied decodes to a well-formed instruction. -/
def Obligations.SuppliedRequestsAreWellFormed : Prop :=
  ∀ (r : Request) (i : Instr), Input.wf Config.params (.request r) = true → decode r = .ok i →
    i.wf Config.params = true

/-- R33: the overlap predicate: symmetric; for non-empty ranges, some address in both; ranges that only
touch do not overlap; the same start always overlaps; an empty range strictly inside overlaps. -/
def Obligations.OverlapPredicate : Prop :=
  ∀ a0 a1 b0 b1 : Nat,
    (overlaps a0 a1 b0 b1 = true ↔ a0 = b0 ∨ (b0 ≤ a0 ∧ a0 < b1) ∨ (a0 ≤ b0 ∧ b0 < a1))
    ∧ overlaps a0 a1 b0 b1 = overlaps b0 b1 a0 a1
    ∧ (a0 < a1 → b0 < b1 →
      (overlaps a0 a1 b0 b1 = true ↔ ∃ x, (a0 ≤ x ∧ x < a1) ∧ b0 ≤ x ∧ x < b1))
    ∧ (a0 < a1 → a1 = b0 → b0 ≤ b1 → overlaps a0 a1 b0 b1 = false)
    ∧ (b0 ≤ a0 → a0 < b1 → overlaps a0 a0 b0 b1 = true)

/-! ## The router -/

/-- R109, R24: SIZE answers the declared upper bound and changes nothing, and no command writes that
bound. -/
def Obligations.SizeAnswersTheDeclaredTotal : Prop :=
  (∀ s : State, s.stopped = none → exec .size s = .next (s.respond (.ok (.total s.root.total))))
  ∧ ∀ (i : Instr) (s t : State), exec i s = .next t → t.root.total = s.root.total

/-- R98 with R95 to R97: a READ whose span lies inside one leaf store of the root answers that store's
bytes and changes nothing. -/
def Obligations.ReadAnswersTheLeafBytes : Prop :=
  ∀ (s : State) (start stop : Nat) (f : Found), s.stopped = none →
    find s.root.entries start = some f → f.sub.kind ≠ .sparse → start ≤ stop →
    stop ≤ f.offset + f.sub.size →
    exec (.read start stop) s = .next (s.respond (.ok (.data
      ((List.range (stop - start)).map fun i => leafByte f.sub (start - f.offset + i)))))

/-- R94 to R98, R100, R120, R169: the READ, at every level of nesting and in the order of its checks. A
reversed range first; in a leaf store, a span past the size, and else the bytes; in a composite, an unmapped
start, a span that crosses out of its sub-space, and else the sub-space's own read of the translated span,
which cannot fail in a leaf. The command is this read of the root. -/
def Obligations.ReadChecksInOrder : Prop :=
  (∀ (sp : Space) (start stop : Nat), start > stop → memRead sp start stop = .err .underflow)
  ∧ (∀ (sp : Space) (start stop : Nat), sp.kind ≠ .sparse → start ≤ stop →
    if stop > sp.size then memRead sp start stop = .err .outOfBounds
    else memRead sp start stop
      = .ok ((List.range (stop - start)).map fun i => leafByte sp (start + i)))
  ∧ (∀ (total : Nat) (es : Regions) (start stop : Nat), start ≤ stop →
    match find es start with
    | none => memRead (.sparse total es) start stop = .err .invalidAccess
    | some f =>
      if stop > f.offset + f.sub.size then
        memRead (.sparse total es) start stop = .err .invalidAccess
      else
        memRead (.sparse total es) start stop = memRead f.sub (start - f.offset) (stop - f.offset)
          ∧ (f.sub.kind ≠ .sparse → ∃ data, memRead (.sparse total es) start stop = .ok data))
  ∧ ∀ (s : State) (start stop : Nat), s.stopped = none →
    match memRead s.root.toSpace start stop with
    | .ok data => exec (.read start stop) s = .next (s.respond (.ok (.data data)))
    | .err k => exec (.read start stop) s = .next (s.respond (.err k))
    | .fault _ => False
    | .refused _ => False

/-- R45: what a READ of a well-formed space answers is, byte by byte, what a READ of each one address
answers, and as many bytes as the span has. -/
def Obligations.ReadIsBytewise : Prop :=
  ∀ (p : Params) (sp : Space) (start stop : Nat) (data : List Byte), sp.wf p = true →
    memRead sp start stop = .ok data →
    data.length = stop - start
      ∧ ∀ i (h : i < data.length), byteAt sp (start + i) = .ok [data[i]]

/-- R102, R105, R107: a WRITE that fits in a Dense store of the root stores the data there; every address
outside the span reads as before, the map is as before, and nothing else of the state changes. -/
def Obligations.WriteToADenseStoreCompletes : Prop :=
  ∀ (s : State) (addr : Nat) (data : List Byte) (f : Found) (d : Dense),
    s.root.wf Config.params.uncapped = true → s.stopped = none →
    find s.root.entries addr = some f → f.sub = .dense d →
    addr + data.length ≤ f.offset + d.size →
    ∃ c : Composite,
      exec (.write addr data) s = .next ((s.setRoot c).respond (.ok .unit))
      ∧ c.total = s.root.total
      ∧ (∀ i (h : i < data.length), byteAt c.toSpace (addr + i) = .ok [data[i]])
      ∧ (∀ x, x < addr ∨ addr + data.length ≤ x → byteAt c.toSpace x = byteAt s.root.toSpace x)
      ∧ ∀ x, findValue c.entries x = findValue s.root.entries x

/-- R53, R63, R105: read after write through any nesting: a write that answers OK stores every byte of its
span, leaves every other address as it was, and keeps the size. -/
def Obligations.ReadAfterWriteThroughNesting : Prop :=
  ∀ (p : Params) (sp sp' : Space) (addr : Nat) (data : List Byte), sp.wf p.uncapped = true →
    memWrite p sp addr data = .ok sp' →
    memRead sp' addr (addr + data.length) = .ok data
      ∧ (∀ x, x < addr ∨ addr + data.length ≤ x → byteAt sp' x = byteAt sp x)
      ∧ sp'.size = sp.size

/-- R54: the same WRITE twice leaves the state of one. -/
def Obligations.RepeatedWriteIsIdempotent : Prop :=
  ∀ (s t : State) (addr : Nat) (data : List Byte), s.root.wf Config.params.uncapped = true →
    exec (.write addr data) s = .next t → t.response = some (.ok .unit) →
    exec (.write addr data) t = .next t

/-- R101 to R107, R120, R168, R169: the WRITE, at every level of nesting and in the order of its checks. In
a Dense store, length and end, then the size, and else the data at its place; in a Zero or a ROM, ReadOnly; in
a composite, unmapped, length, end, fit, and then the sub-space's own write: its updated value replaces the
sub-space, and its failure passes up as its own kind. The command is this write of the root, and the root
becomes the updated value. -/
def Obligations.WriteChecksInOrder : Prop :=
  (∀ (p : Params) (d : Dense) (addr : Nat) (data : List Byte),
    if data.length > p.maxAddr ∨ addr + data.length > p.maxAddr then
      memWrite p (.dense d) addr data = .err .overflow
    else if addr + data.length > d.size then memWrite p (.dense d) addr data = .err .outOfBounds
    else
      ∃ d' : Dense, memWrite p (.dense d) addr data = .ok (.dense d') ∧ d'.size = d.size
        ∧ (Memory.wf d.bytes = true →
          ∀ i (h : i < data.length), readByte d'.bytes (addr + i) = data[i])
        ∧ ∀ x, x < addr ∨ addr + data.length ≤ x → readByte d'.bytes x = readByte d.bytes x)
  ∧ (∀ (p : Params) (n addr : Nat) (d : Dense) (data : List Byte),
    memWrite p (.zero n) addr data = .err .readOnly ∧ memWrite p (.rom d) addr data = .err .readOnly)
  ∧ (∀ (p : Params) (total : Nat) (es : Regions) (addr : Nat) (data : List Byte),
    match find es addr with
    | none => memWrite p (.sparse total es) addr data = .err .invalidAccess
    | some f =>
      if data.length > p.maxAddr then memWrite p (.sparse total es) addr data = .err .overflow
      else if addr - f.offset + data.length > p.maxAddr then
        memWrite p (.sparse total es) addr data = .err .overflow
      else if addr - f.offset + data.length > f.sub.size then
        memWrite p (.sparse total es) addr data = .err .invalidAccess
      else
        match memWrite p f.sub (addr - f.offset) data with
        | .ok sub' =>
          ∃ es', ReplacedAt es es' f.index f.offset sub'
            ∧ memWrite p (.sparse total es) addr data = .ok (.sparse total es')
        | .err k => memWrite p (.sparse total es) addr data = .err k
        | .fault _ => False
        | .refused _ => False)
  ∧ ∀ (s : State) (addr : Nat) (data : List Byte), s.stopped = none →
    match memWrite Config.params s.root.toSpace addr data with
    | .ok root' =>
      ∃ c : Composite, root' = c.toSpace
        ∧ exec (.write addr data) s = .next ((s.setRoot c).respond (.ok .unit))
    | .err k => exec (.write addr data) s = .next (s.respond (.err k))
    | .fault _ => False
    | .refused _ => False

/-- R103, R104: a write to a Zero or a ROM value fails with ReadOnly for every address and every data. -/
def Obligations.ReadOnlyStoresRejectEveryWrite : Prop :=
  ∀ (p : Params) (n addr : Nat) (d : Dense) (data : List Byte),
    memWrite p (.zero n) addr data = .err .readOnly ∧ memWrite p (.rom d) addr data = .err .readOnly

/-- R61, R63, R127, R194: no instruction unmaps an address or changes the kind of the leaf store it belongs
to, at any depth; the bytes of a ROM never change, and the others by WRITE alone. An address that ADD_SPACE
maps belongs to the space added and reads as it does: for a space that the constructors can build, 0 unless it
belongs to a ROM. This is said for every parameters `p` an instance may have; `exec` runs the same command at
those of the machine. -/
def Obligations.MappedStaysMappedAndRomNeverChanges : Prop :=
  (∀ (i : Instr) (s t : State), s.root.wf Config.params.uncapped = true →
    exec i s = .next t → ∀ a k, leafKindAt s.root.toSpace a = some k →
      leafKindAt t.root.toSpace a = some k
        ∧ (k = .rom ∨ (∀ addr data, i ≠ .write addr data) →
          byteAt t.root.toSpace a = byteAt s.root.toSpace a))
  ∧ ∀ (p : Params) (s : State) (off : Nat) (sp : Space),
    (∀ t : State, portCommand s (addToRoot p off sp s) = .next t →
      ∀ a k, leafKindAt s.root.toSpace a = none → leafKindAt t.root.toSpace a = some k →
        off ≤ a ∧ leafKindAt sp (a - off) = some k
          ∧ byteAt t.root.toSpace a = byteAt sp (a - off)
          ∧ (sp.unwritten = true → k ≠ .rom → byteAt t.root.toSpace a = .ok [0#8]))
    ∧ exec (.addSpace off sp) s = portCommand s (addToRoot Config.params off sp s)

/-- R108: OutOfBounds comes from ROM_LOAD alone. -/
def Obligations.OutOfBoundsOnlyFromRomLoad : Prop :=
  ∀ (i : Instr) (s t : State), exec i s = .next t → t.response = some (.err .outOfBounds) →
    ∃ rom addr data, i = .romLoad rom addr data

/-- R110, R112, R113: FIND reports the entry that contains the address, of the root's own entries, and
hit 0 where there is none. -/
def Obligations.FindReportsTheEntry : Prop :=
  ∀ (p : Params) (s : State) (a : Nat), s.root.wf p = true → s.stopped = none →
    (∀ k off sub, s.root.entries.get? k = some (off, sub) → off ≤ a → a < off + sub.size →
      exec (.find a) s = .next (s.respond (.ok (.hit k off sub.size sub.kind))))
    ∧ ((∀ k off sub, s.root.entries.get? k = some (off, sub) → ¬(off ≤ a ∧ a < off + sub.size)) →
      exec (.find a) s = .next (s.respond (.ok .miss)))

/-- R111: the source's binary search returns what the definition of `find` returns. -/
def Obligations.BinarySearchAgreesWithFind : Prop :=
  ∀ (p : Params) (c : Composite) (a : Nat), c.wf p = true → findBinary c.entries a = find c.entries a

/-- R116, R118, R122: ADD_SPACE of a space that passes the bound and the overlap check completes: it is
refused on a full table; else the entry stands at its sorted slot, and nothing else of the state changes.
The same is said for every parameters `p` an instance may have. -/
def Obligations.AddSpaceInsertsAtTheSortedSlot : Prop :=
  (∀ (s : State) (off : Nat) (sp : Space), s.stopped = none → Addable Config.params s.root off sp →
    if tableFull Config.params s.root.entries = true then
      exec (.addSpace off sp) s = .next (s.markRefused.respond (.refused .tableFull))
    else
      ∃ k es, InsertedAt s.root.entries es off sp k
        ∧ exec (.addSpace off sp) s
          = .next ((s.setRoot { s.root with entries := es }).respond (.ok (.index k))))
  ∧ ∀ (p : Params) (s : State) (off : Nat) (sp : Space), s.stopped = none → Addable p s.root off sp →
    tableFull p s.root.entries = false →
    ∃ k es, InsertedAt s.root.entries es off sp k
      ∧ portCommand s (addToRoot p off sp s)
        = .next ((s.setRoot { s.root with entries := es }).respond (.ok (.index k)))

/-- R114, R115, R118, R122, R129, R169: ADD_SPACE and SPARSE_ADD turn a space away by the checks of
registration, in order: bound, overlap, full table. Said for every parameters `p` an instance may have;
`exec` runs the same commands at those of the machine. That SPARSE_ADD's refusal sets the mark is the
model's reading of R173 against R70 (log entry 9). -/
def Obligations.AddSpaceChecksInOrder : Prop :=
  ∀ (p : Params) (s : State) (off : Nat) (sp : Space), s.stopped = none →
    (off + sp.size > p.maxAddr ∨ off + sp.size > s.root.total →
      portCommand s (addToRoot p off sp s) = .next (s.respond (.err .overflow))
        ∧ hostRun s (sparseAdd p s.root off sp) = .next (s.respond (.err .overflow)))
    ∧ (off + sp.size ≤ p.maxAddr → off + sp.size ≤ s.root.total →
      (∀ k o e, s.root.entries.get? k = some (o, e) →
        overlaps off (off + sp.size) o (o + e.size) = true →
        portCommand s (addToRoot p off sp s) = .next (s.respond (.err .overlap))
          ∧ hostRun s (sparseAdd p s.root off sp) = .next (s.respond (.err .overlap)))
      ∧ ((∀ k o e, s.root.entries.get? k = some (o, e) →
          overlaps off (off + sp.size) o (o + e.size) = false) →
        p.maxRegions = some s.root.entries.count →
        portCommand s (addToRoot p off sp s) = .next (s.markRefused.respond (.refused .tableFull))
          ∧ hostRun s (sparseAdd p s.root off sp)
            = .next (s.markRefused.respond (.refused .tableFull))))
    ∧ exec (.addSpace off sp) s = portCommand s (addToRoot Config.params off sp s)
    ∧ exec (.sparseAdd s.root off sp) s = hostRun s (sparseAdd Config.params s.root off sp)

/-- R119: of two spaces that overlap and fit, whichever is registered first, the other fails with
Overlap. -/
def Obligations.OverlapIsRejectedInEitherOrder : Prop :=
  ∀ (p : Params) (c cA cB : Composite) (a b kA kB : Nat) (A B : Space),
    overlaps a (a + A.size) b (b + B.size) = true →
    registerSpace p c a A = .ok (cA, kA) → registerSpace p c b B = .ok (cB, kB) →
    registerSpace p cA b B = .err .overlap ∧ registerSpace p cB a A = .err .overlap

/-! ## The constructors -/

/-- R123, R124, R125, R128: the four constructors answer empty stores of the size asked for; a new Dense,
Zero or ROM reads 0 at every address below its size. That a constructor is a step, which a stopped block
takes too, is the model's choice (log entry 8). -/
def Obligations.NewStoresAreEmpty : Prop :=
  ∀ (s : State) (n : Nat),
    exec (.newDense n) s = .next (s.respond (.ok (.space (.dense ⟨n, []⟩))))
    ∧ exec (.newZero n) s = .next (s.respond (.ok (.space (.zero n))))
    ∧ exec (.newRom n) s = .next (s.respond (.ok (.space (.rom ⟨n, []⟩))))
    ∧ exec (.newSparse n) s = .next (s.respond (.ok (.space (.sparse n .nil))))
    ∧ ∀ a, a < n → byteAt (.dense ⟨n, []⟩) a = .ok [0#8] ∧ byteAt (.zero n) a = .ok [0#8]
      ∧ byteAt (.rom ⟨n, []⟩) a = .ok [0#8]

/-- R126, R102: a ROM_LOAD fails with Overflow where its end wraps and with OutOfBounds where it passes the
ROM's size; else it answers the ROM with the image written and every other byte as it was. In each case
nothing else changes. That a constructor is a step, which a stopped block takes too, is the model's choice
(log entry 8). -/
def Obligations.RomLoadWritesTheImage : Prop :=
  ∀ (s : State) (rom : Dense) (addr : Nat) (data : List Byte), rom.wf Config.params = true →
    if addr + data.length > Config.params.maxAddr then
      exec (.romLoad rom addr data) s = .next (s.respond (.err .overflow))
    else if addr + data.length > rom.size then
      exec (.romLoad rom addr data) s = .next (s.respond (.err .outOfBounds))
    else
      ∃ d : Dense, exec (.romLoad rom addr data) s = .next (s.respond (.ok (.space (.rom d))))
        ∧ d.size = rom.size
        ∧ (∀ i (h : i < data.length), readByte d.bytes (addr + i) = data[i])
        ∧ ∀ x, x < addr ∨ addr + data.length ≤ x → readByte d.bytes x = readByte rom.bytes x

/-- R117, R122, R129: SPARSE_ADD of a space that passes the bound and the overlap check completes: it is
refused on a full table; else the parent with the entry at its sorted slot goes back to the host, with the
slot, and the block's state stays. The same is said for every parameters `p` an instance may have. That a
constructor is a step, which a stopped block takes too, is the model's choice (log entry 8); that the refusal
sets the mark, where the block is not stopped, is read from R173 (log entry 9). -/
def Obligations.SparseAddInsertsAtTheSortedSlot : Prop :=
  (∀ (s : State) (parent : Composite) (off : Nat) (sp : Space), Addable Config.params parent off sp →
    if tableFull Config.params parent.entries = true then
      (s.stopped = none →
        exec (.sparseAdd parent off sp) s = .next (s.markRefused.respond (.refused .tableFull)))
      ∧ ∀ d, s.stopped = some d →
        exec (.sparseAdd parent off sp) s = .next (s.respond (.refused .tableFull))
    else
      ∃ k es, InsertedAt parent.entries es off sp k
        ∧ exec (.sparseAdd parent off sp) s
          = .next (s.respond (.ok (.spaceAt (.sparse parent.total es) k))))
  ∧ ∀ (p : Params) (s : State) (parent : Composite) (off : Nat) (sp : Space), Addable p parent off sp →
    tableFull p parent.entries = false →
    ∃ k es, InsertedAt parent.entries es off sp k
      ∧ hostRun s (sparseAdd p parent off sp)
        = .next (s.respond (.ok (.spaceAt (.sparse parent.total es) k)))

/-! ## The scanner unit -/

/-- R37: bit `i` of a window. -/
def Obligations.WindowBitOrder : Prop :=
  ∀ (w : List Byte) (i : Nat) (h : i / 8 < w.length),
    (windowBit w i).toNat = (w[i / 8].toNat >>> (i % 8)) % 2

/-- R131: SCAN_LOAD refuses a window longer than `MAX_WINDOW_BYTES`, and else takes it and sets the cursor
to its first bit. The same is said for every parameters `p` an instance may have. -/
def Obligations.ScanLoadTakesTheWindow : Prop :=
  ∀ (p : Params) (s : State) (w : List Byte), s.stopped = none →
    exec (.scanLoad w) s
      = .next (windowAnswer Config.params w s ((s.setScan ⟨w, 0⟩).respond (.ok .unit)))
    ∧ portCommand s (loadWindow p w s)
      = .next (windowAnswer p w s ((s.setScan ⟨w, 0⟩).respond (.ok .unit)))

/-- R72, R131, R152: SCAN_LOAD and DECODE refuse a window longer than a finite `MAX_WINDOW_BYTES`. Said for
every parameters `p` an instance may have; `exec` runs the same commands at those of the machine. -/
def Obligations.LongWindowsAreRefused : Prop :=
  ∀ (p : Params) (s : State) (w : List Byte), s.stopped = none →
    (∀ m, p.maxWindow = some m → w.length > m →
      portCommand s (loadWindow p w s) = .next (s.markRefused.respond (.refused .windowTooLong))
        ∧ decodeCommand p w s = .next (s.markRefused.respond (.refused .windowTooLong)))
    ∧ exec (.scanLoad w) s = portCommand s (loadWindow Config.params w s)
    ∧ exec (.decode w) s = decodeCommand Config.params w s

/-- R132: PEEK_BIT answers the bit at the cursor and never moves it; Exhausted at or past the end. -/
def Obligations.PeekBitAnswersTheBit : Prop :=
  ∀ s : State, s.stopped = none →
    if s.scan.pos ≥ 8 * s.scan.window.length then
      exec .peekBit s = .next (s.respond (.err .exhausted))
    else
      exec .peekBit s = .next (s.respond (.ok (.bit (windowBit s.scan.window s.scan.pos))))

/-- R133: NEXT_BIT answers the bit at the cursor and moves past it; Exhausted, cursor unmoved, at or past
the end. -/
def Obligations.NextBitAdvances : Prop :=
  ∀ s : State, s.stopped = none →
    if s.scan.pos ≥ 8 * s.scan.window.length then
      exec .nextBit s = .next (s.respond (.err .exhausted))
    else
      exec .nextBit s = .next ((s.setScan ⟨s.scan.window, s.scan.pos + 1⟩).respond
        (.ok (.bit (windowBit s.scan.window s.scan.pos))))

/-- R137: the field value is the sum of its bits, the first one least significant, and lies below
`2^w`. -/
def Obligations.FieldIsTheSumOfItsBits : Prop :=
  ∀ (window : List Byte) (pos w : Nat),
    field window pos w = ∑ i ∈ Finset.range w, (windowBit window (pos + i)).toNat * 2 ^ i
      ∧ field window pos w < 2 ^ w

/-- R136, R140: COLLECT, in the order of its checks: a width above its target is refused, too few bits
give Exhausted, and else the field is answered, zero-extended, and the cursor moves past it. -/
def Obligations.CollectTakesTheField : Prop :=
  ∀ (s : State) (w : BitVec 7) (t : BitVec 2), s.stopped = none →
    if w.toNat > 8 <<< t.toNat then
      exec (.collect w t) s = .next (s.markRefused.respond (.refused .widthExceedsTarget))
    else if w.toNat > 8 * s.scan.window.length - s.scan.pos then
      exec (.collect w t) s = .next (s.respond (.err .exhausted))
    else
      exec (.collect w t) s
        = .next ((s.setScan ⟨s.scan.window, s.scan.pos + w.toNat⟩).respond
          (.ok (.field (BitVec.ofNat 64 (field s.scan.window s.scan.pos w.toNat)))))

/-- R91, R141: COLLECT_TYPE t is COLLECT (8 << t), t, and completes wherever that many bits are left. -/
def Obligations.CollectTypeIsCollectOfTheWidth : Prop :=
  ∀ (s : State) (t : BitVec 2),
    exec (.collectType t) s = exec (.collect (BitVec.ofNat 7 (8 <<< t.toNat)) t) s
    ∧ (s.stopped = none → 8 <<< t.toNat ≤ 8 * s.scan.window.length - s.scan.pos →
      exec (.collectType t) s
        = .next ((s.setScan ⟨s.scan.window, s.scan.pos + 8 <<< t.toNat⟩).respond
          (.ok (.field (BitVec.ofNat 64 (field s.scan.window s.scan.pos (8 <<< t.toNat)))))))

/-- R138: the byte-wise assembly is bit-identical to the bit-by-bit field. -/
def Obligations.BytewiseAssemblyEqualsTheField : Prop :=
  ∀ (window : List Byte) (pos w : Nat), pos + w ≤ 8 * window.length →
    fieldBytewise window pos w = field window pos w

/-- R139: a COLLECT equals as many NEXT_BITs assembled LSB-first, in value and in cursor. -/
def Obligations.CollectEqualsRepeatedNextBit : Prop :=
  ∀ (s : State) (w : BitVec 7) (t : BitVec 2), s.stopped = none → w.toNat ≤ 8 <<< t.toNat →
    w.toNat ≤ 8 * s.scan.window.length - s.scan.pos →
    ∃ bits u v, nextBits w.toNat s = some (bits, u) ∧ bits.length = w.toNat
      ∧ exec (.collect w t) s = .next v
      ∧ v.response = some (.ok (.field (BitVec.ofNat 64 (bitsToNat bits)))) ∧ v.scan = u.scan

/-- R46: a byte-aligned field of `8k` bits is the little-endian number of its `k` bytes. -/
def Obligations.AlignedFieldIsLittleEndian : Prop :=
  ∀ (window : List Byte) (j k : Nat), j + k ≤ window.length →
    field window (8 * j) (8 * k) = littleEndian ((window.drop j).take k)

/-- R134: the exhausted state is terminal: PEEK_BIT, NEXT_BIT and every COLLECT of a legal width above 0
fail with Exhausted, and no instruction but SCAN_LOAD changes the cursor; no instruction moves the cursor
past the end of its window. -/
def Obligations.ExhaustedStateIsTerminal : Prop :=
  (∀ (i : Instr) (s t : State), s.scan.pos ≤ 8 * s.scan.window.length → exec i s = .next t →
    t.scan.pos ≤ 8 * t.scan.window.length)
  ∧ ∀ s : State, s.stopped = none → s.scan.pos = 8 * s.scan.window.length →
    exec .peekBit s = .next (s.respond (.err .exhausted))
    ∧ exec .nextBit s = .next (s.respond (.err .exhausted))
    ∧ (∀ (w : BitVec 7) (t : BitVec 2), 0 < w.toNat → w.toNat ≤ 8 <<< t.toNat →
      exec (.collect w t) s = .next (s.respond (.err .exhausted)))
    ∧ ∀ i t, (∀ w, i ≠ .scanLoad w) → exec i s = .next t → t.scan = s.scan

/-- R142, R144, R145: the three cursor queries, and AT_LEAST of a legal width above 0 is false exactly
where COLLECT fails with Exhausted. -/
def Obligations.CursorQueries : Prop :=
  ∀ (s : State) (n : BitVec 2) (m : Nat), s.stopped = none →
    exec (.isAligned n) s = .next (s.respond (.ok (.aligned (s.scan.pos % (8 <<< n.toNat) == 0))))
    ∧ exec .bitsLeft s
      = .next (s.respond (.ok (.count (8 * s.scan.window.length - s.scan.pos))))
    ∧ exec (.atLeast m) s
      = .next (s.respond (.ok (.enough (decide (m ≤ 8 * s.scan.window.length - s.scan.pos)))))
    ∧ ∀ (w : BitVec 7) (t : BitVec 2), 0 < w.toNat → w.toNat ≤ 8 <<< t.toNat →
      (exec (.atLeast w.toNat) s = .next (s.respond (.ok (.enough false)))
        ↔ exec (.collect w t) s = .next (s.respond (.err .exhausted)))

/-! ## The decoder -/

/-- R74: the five fields taken off the stream are the fields of the little-endian header word. -/
def Obligations.HeaderFieldsOfTheStream : Prop :=
  ∀ (b0 b1 : Byte) (rest : List Byte),
    collectHeader ⟨b0 :: b1 :: rest, 0⟩
      = .ok (⟨hdrOp (headerWord b0 b1), hdrOut (headerWord b0 b1), hdrFmt (headerWord b0 b1),
          hdrR1 (headerWord b0 b1), hdrR2 (headerWord b0 b1)⟩, ⟨b0 :: b1 :: rest, 16⟩)

/-- R164, R86: DECODE of an encoded instruction answers its opcode tag, registers, format, operands and
length, and changes nothing else; it is refused where the encoding is longer than `MAX_WINDOW_BYTES`. The
same is said for every parameters `p` an instance may have. -/
def Obligations.DecodeOfEncodeRoundTrips : Prop :=
  ∀ (p : Params) (s : State) (op : BitVec 4) (tag : Opcode) (out : RegCode) (fmt : BitVec 3)
    (r1 r2 : RegCode) (imms : List Imm), s.stopped = none →
    (Config.params.opcodeMap op = some tag → imms.length = nimm Config.params fmt →
      exec (.decode (encodeInsn op out fmt r1 r2 imms)) s
        = .next (windowAnswer Config.params (encodeInsn op out fmt r1 r2 imms) s (s.respond (.ok (.insn
            { opcode := tag, out := reg out, fmt := fmt
              op1 := operand (Config.params.formatTable fmt).1 r1 (imms.headD 0#16)
              op2 := operand (Config.params.formatTable fmt).2 r2 (imms.getLastD 0#16)
              length := 2 + 2 * nimm Config.params fmt })))))
    ∧ (p.opcodeMap op = some tag → imms.length = nimm p fmt →
      decodeCommand p (encodeInsn op out fmt r1 r2 imms) s
        = .next (windowAnswer p (encodeInsn op out fmt r1 r2 imms) s (s.respond (.ok (.insn
            { opcode := tag, out := reg out, fmt := fmt
              op1 := operand (p.formatTable fmt).1 r1 (imms.headD 0#16)
              op2 := operand (p.formatTable fmt).2 r2 (imms.getLastD 0#16)
              length := 2 + 2 * nimm p fmt })))))

/-- R153, R154, R156, R157, R162: what DECODE answers when it does not succeed, in the order of its checks,
for a window that is not too long. Said for every parameters `p` an instance may have; `exec` runs the same
command at those of the machine. -/
def Obligations.DecodeErrorsInOrder : Prop :=
  ∀ (p : Params) (s : State) (window : List Byte), s.stopped = none → windowTooLong p window = false →
    (match window with
    | b0 :: b1 :: trail =>
      match p.opcodeMap (hdrOp (headerWord b0 b1)) with
      | none => decodeCommand p window s = .next (s.respond (.err .invalidOpcode))
      | some _ =>
        if trail.length < 2 * nimm p (hdrFmt (headerWord b0 b1)) then
          decodeCommand p window s = .next (s.respond (.err .exhausted))
        else ∃ d, decodeCommand p window s = .next (s.respond (.ok (.insn d)))
    | _ => decodeCommand p window s = .next (s.respond (.err .exhausted)))
    ∧ exec (.decode window) s = decodeCommand Config.params window s

/-- R82, R160, R161: the length that DECODE reports is 2, 4 or 6, that of its format, within the window,
and the bytes past it do not affect the result. -/
def Obligations.DecodedLengthAndExcessBytes : Prop :=
  ∀ (p : Params) (window : List Byte) (d : DecodedInstruction), decodeWindow p window = .ok d →
    d.length = 2 + 2 * nimm p d.fmt ∧ d.length ∈ [2, 4, 6] ∧ d.length ≤ window.length
      ∧ ∀ more : List Byte, windowTooLong p (window.take d.length ++ more) = false →
        decodeWindow p (window.take d.length ++ more) = .ok d

/-- R88, R152: the eight toy header rows, with any opcode: DECODE of the row's bytes answers the
instruction of the table, or InvalidOpcode where `OPCODE_MAP` says so, and is refused where the window is
longer than `MAX_WINDOW_BYTES`. The same is said for every parameters `p` an instance may have. The form of
the rows is the model's (log entry 10). -/
def Obligations.ToyHeaderRowsDecode : Prop :=
  ∀ (p : Params) (s : State) (op : BitVec 4) (out r1 r2 : RegCode) (trail : List Byte),
    s.stopped = none →
    ∀ row ∈ ([(Instr.hdrFmt000, 0#3), (Instr.hdrFmt001, 1#3), (Instr.hdrFmt010, 2#3),
        (Instr.hdrFmt011, 3#3), (Instr.hdrFmt100, 4#3), (Instr.hdrFmt101, 5#3),
        (Instr.hdrFmt110, 6#3), (Instr.hdrFmt111, 7#3)] :
        List ((BitVec 4 → RegCode → RegCode → RegCode → List Byte → Instr) × BitVec 3)),
      (2 * nimm Config.params row.2 ≤ trail.length →
        exec (row.1 op out r1 r2 trail) s
          = .next (windowAnswer Config.params (headerBytes op out row.2 r1 r2 ++ trail) s (s.respond
              (match Config.params.opcodeMap op with
              | none => .err .invalidOpcode
              | some tag => .ok (.insn (decodedOf Config.params tag out row.2 r1 r2 trail))))))
      ∧ (2 * nimm p row.2 ≤ trail.length →
        decodeCommand p (headerBytes op out row.2 r1 r2 ++ trail) s
          = .next (windowAnswer p (headerBytes op out row.2 r1 r2 ++ trail) s (s.respond
              (match p.opcodeMap op with
              | none => .err .invalidOpcode
              | some tag => .ok (.insn (decodedOf p tag out row.2 r1 r2 trail))))))

/-- R83, R88, R152: Mov in any format decodes to its fields and operands, and is refused where the window is
longer than `MAX_WINDOW_BYTES`; the block executes nothing. The same is said for every parameters `p` an
instance may have. The form of the row is the model's (log entry 10). -/
def Obligations.MovDecodes : Prop :=
  ∀ (p : Params) (s : State) (out : RegCode) (fmt : BitVec 3) (r1 r2 : RegCode) (trail : List Byte),
    s.stopped = none →
    (2 * nimm Config.params fmt ≤ trail.length →
      exec (.mov out fmt r1 r2 trail) s
        = .next (windowAnswer Config.params (headerBytes 1#4 out fmt r1 r2 ++ trail) s
            (s.respond (.ok (.insn (decodedOf Config.params .mov out fmt r1 r2 trail))))))
    ∧ (p.opcodeMap 1#4 = some .mov → 2 * nimm p fmt ≤ trail.length →
      decodeCommand p (headerBytes 1#4 out fmt r1 r2 ++ trail) s
        = .next (windowAnswer p (headerBytes 1#4 out fmt r1 r2 ++ trail) s
            (s.respond (.ok (.insn (decodedOf p .mov out fmt r1 r2 trail))))))

/-! ## Encoding -/

/-- A few words of the opcode table, read by the decoder (R69, R70, R75). How a word of the command log is
numbered is the model's (log entry 18). -/
def Obligations.TableWordsDecode : Prop :=
  decodeTableWord 8 0x00 = some .size ∧ decodeTableWord 8 0x0B = some (.collect 0 0)
    ∧ decodeTableWord 8 0x18 = some (.newDense 0) ∧ decodeTableWord 8 0x05 = none
    ∧ decodeTableWord 16 0x0911 = some (.mov 1 2 2 0 [0, 0, 0, 0])
    ∧ decodeTableWord 16 0xE3F2 = some (.hdrFmt111 2 7 0 7 [0, 0, 0, 0])

/-- R69, R70, R86: every well-formed instruction, with every operand, decodes from its encoding. -/
def Obligations.DecodeOfEncodeForEveryInstruction : Prop :=
  ∀ i : Instr, i.wf Config.params = true → decode (encode i) = .ok i

/-- R84: every window of a header and more is one toy row, well-formed, and that row encodes to the very
window: no bit of the header or of the bytes after it is dropped. -/
def Obligations.EveryHeaderHasItsRow : Prop :=
  ∀ window : List Byte, 2 ≤ window.length →
    ∃ i, decode (.insn window) = .ok i ∧ i.wf Config.params = true ∧ encode i = .insn window
end

