-- ==== Sys2Proof/Laws/Config.lean ====
section
/-! SUPPORT. What holds of the parameters whatever their open values. -/

namespace Sys2Proof.Machine

/-- The completion of a forbidden choice is itself legal. -/
theorem legal_someFormatTable : legalFormatTable someFormatTable = true := by decide

theorem formatTable_congr {f g : BitVec 3 → OperandSource × OperandSource} (h : ∀ c, f c = g c) :
    legalFormatTable f = legalFormatTable g := by
  rw [funext h]

/-- The parameters satisfy what the spec demands of an instance (R9, R10, R11, R76). -/
theorem params_legal : Config.params.legal := by
  refine ⟨Nat.succ_pos _, ?_, rfl, ?_⟩
  · exact Nat.le_sub_one_of_lt (Nat.mod_lt _ (Nat.two_pow_pos _))
  · show legalFormatTable Config.formatTable = true
    by_cases h : legalFormatTable Config.formatTableOpen = true
    · have h2 : Config.formatTableOpen 2#3 = (.raw, .const) := by
        simp only [legalFormatTable, Bool.and_eq_true, beq_iff_eq] at h
        exact h.1.1
      rw [formatTable_congr (g := Config.formatTableOpen), h]
      intro c
      by_cases hc : c = 2#3
      · simp [Config.formatTable, hc, h2]
      · simp [Config.formatTable, hc, h]
    · rw [formatTable_congr (g := someFormatTable), legal_someFormatTable]
      intro c
      by_cases hc : c = 2#3
      · subst hc; rfl
      · simp [Config.formatTable, hc, h]

/-- AW is at least 1 (R9), so 0 and 1 are Addresses. -/
theorem one_le_maxAddr : 1 ≤ Config.params.maxAddr := by
  have h : 2 ^ 1 ≤ 2 ^ Config.params.addrBits :=
    Nat.pow_le_pow_right (by decide) params_legal.1
  simp only [Params.maxAddr]
  omega

/-- Mov is opcode 1 (R11). -/
@[simp] theorem opcodeMap_one : Config.params.opcodeMap 1#4 = some .mov := rfl

/-- Format code 0b010 is `(RAW, CONST)` (R12). -/
@[simp] theorem formatTable_two : Config.params.formatTable 2#3 = (.raw, .const) := rfl

/-- The empty table fits whatever `MAX_REGIONS` is (R13). -/
@[simp] theorem tableFits_zero (p : Params) : p.tableFits 0 = true := by
  unfold Params.tableFits
  split <;> simp

@[simp] theorem tableFits_uncapped (p : Params) (n : Nat) : p.uncapped.tableFits n = true := rfl

@[simp] theorem maxAddr_uncapped (p : Params) : p.uncapped.maxAddr = p.maxAddr := rfl

mutual

/-- A Space value of an instance is one of the same instance without `MAX_REGIONS`. -/
theorem space_wf_uncapped {p : Params} : ∀ {sp : Space}, sp.wf p = true → sp.wf p.uncapped = true
  | .dense _, h => h
  | .zero _, h => h
  | .rom _, h => h
  | .sparse t es, h => by
    simp only [Space.wf, Bool.and_eq_true] at h ⊢
    exact ⟨⟨h.1.1, rfl⟩, regions_wf_uncapped h.2⟩

theorem regions_wf_uncapped {p : Params} {t : Nat} :
    ∀ {es : Regions}, es.wf p t = true → es.wf p.uncapped t = true
  | .nil, _ => rfl
  | .cons _ _ _, h => by
    simp only [Regions.wf, Bool.and_eq_true] at h ⊢
    exact ⟨⟨⟨space_wf_uncapped h.1.1.1, h.1.1.2⟩, h.1.2⟩, regions_wf_uncapped h.2⟩

end

/-- The empty window is accepted whatever `MAX_WINDOW_BYTES` is (R13). -/
@[simp] theorem windowTooLong_nil (p : Params) : windowTooLong p [] = false := by
  unfold windowTooLong
  split <;> simp

/-- An instruction has at most two immediate words (R77). -/
theorem nimm_le_two (p : Params) (fmt : BitVec 3) : nimm p fmt ≤ 2 := by
  simp only [nimm]
  have h : ∀ s, immCount s ≤ 1 := by intro s; cases s <;> decide
  have h1 := h (p.formatTable fmt).1
  have h2 := h (p.formatTable fmt).2
  omega

end Sys2Proof.Machine
end

