-- ==== Sys2Proof/Laws/Encoding.lean ====
section
/-! SUPPORT. The fields of an encoded toy header, one lemma per field: what the decoder takes off a header
is what the encoder put there (30_encoding.md R74, R86). -/

namespace Sys2Proof

@[simp] theorem headerWord_wordBytes (h : BitVec 16) :
    headerWord (h.extractLsb' 0 8) (h.extractLsb' 8 8) = h := by
  apply BitVec.eq_of_getLsbD_eq
  intro i hi
  rw [headerWord, BitVec.getLsbD_append, BitVec.getLsbD_extractLsb', BitVec.getLsbD_extractLsb']
  split
  · rename_i h8
    simp [h8]
  · rename_i h8
    have h1 : i - 8 < 8 := by omega
    have h2 : 8 + (i - 8) = i := by omega
    simp [h1, h2]

section
variable (op : BitVec 4) (out : RegCode) (fmt : BitVec 3) (r1 r2 : RegCode)

@[simp] theorem hdrOp_headerOf : hdrOp (headerOf op out fmt r1 r2) = op := by
  apply BitVec.eq_of_getLsbD_eq
  intro i hi
  simp only [hdrOp, headerOf, BitVec.getLsbD_extractLsb', BitVec.getLsbD_or,
    BitVec.getLsbD_shiftLeft, BitVec.getLsbD_setWidth]
  interval_cases i <;> simp

@[simp] theorem hdrOut_headerOf : hdrOut (headerOf op out fmt r1 r2) = out := by
  apply BitVec.eq_of_getLsbD_eq
  intro i hi
  simp only [hdrOut, headerOf, BitVec.getLsbD_extractLsb', BitVec.getLsbD_or,
    BitVec.getLsbD_shiftLeft, BitVec.getLsbD_setWidth]
  interval_cases i <;> simp

@[simp] theorem hdrFmt_headerOf : hdrFmt (headerOf op out fmt r1 r2) = fmt := by
  apply BitVec.eq_of_getLsbD_eq
  intro i hi
  simp only [hdrFmt, headerOf, BitVec.getLsbD_extractLsb', BitVec.getLsbD_or,
    BitVec.getLsbD_shiftLeft, BitVec.getLsbD_setWidth]
  interval_cases i <;> simp

@[simp] theorem hdrR1_headerOf : hdrR1 (headerOf op out fmt r1 r2) = r1 := by
  apply BitVec.eq_of_getLsbD_eq
  intro i hi
  simp only [hdrR1, headerOf, BitVec.getLsbD_extractLsb', BitVec.getLsbD_or,
    BitVec.getLsbD_shiftLeft, BitVec.getLsbD_setWidth]
  interval_cases i <;> simp

@[simp] theorem hdrR2_headerOf : hdrR2 (headerOf op out fmt r1 r2) = r2 := by
  apply BitVec.eq_of_getLsbD_eq
  intro i hi
  simp only [hdrR2, headerOf, BitVec.getLsbD_extractLsb', BitVec.getLsbD_or,
    BitVec.getLsbD_shiftLeft, BitVec.getLsbD_setWidth]
  interval_cases i <;> simp

/-- The row that the decoder reads from an encoded header. -/
theorem decodeInsn_headerBytes (trail : List Byte) :
    decodeInsn (headerBytes op out fmt r1 r2 ++ trail)
      = .ok (decodeHeaderRow (headerOf op out fmt r1 r2) trail) := by
  show Except.ok (decodeHeaderRow (headerWord _ _) trail) = _
  rw [headerWord_wordBytes]

end

end Sys2Proof
end

