-- ==== Sys2Proof/Laws/Memory.lean ====
section
/-! SUPPORT. The laws of a buffer's contents: a read after a write, and the canonical form that every
operation keeps. -/

namespace Sys2Proof

theorem readByte_writeByte_same (m : Memory) (a : Nat) (b : Byte) (hm : Memory.wf m = true) :
    readByte (writeByte m a b) a = b := by
  induction m with
  | nil => by_cases h : b = 0#8 <;> simp [writeByte, readByte, h]
  | cons c m ih =>
    obtain ⟨k, v⟩ := c
    simp only [Memory.wf, Bool.and_eq_true, List.all_eq_true, decide_eq_true_eq] at hm
    have above : ∀ n : Memory, (∀ c ∈ n, a < c.1) → readByte n a = 0#8 := by
      intro n
      induction n with
      | nil => intro _; rfl
      | cons c n ihn =>
        intro h
        have h1 := h c (by simp)
        have h2 := ihn fun x hx => h x (by simp [hx])
        simp only [readByte]
        rw [if_neg (by omega), h2]
    simp only [writeByte]
    split
    · rename_i h
      split
      · rename_i hb
        rw [above, hb]
        intro c hc
        rcases List.mem_cons.mp hc with rfl | hc
        · exact h
        · have := hm.1.2 c hc; omega
      · simp [readByte]
    · split
      · rename_i h1 h2
        subst h2
        split
        · rename_i hb
          rw [above m hm.1.2, hb]
        · simp [readByte]
      · rename_i h1 h2
        simp only [readByte]
        rw [if_neg (by omega), ih hm.2]

theorem readByte_writeByte_other (m : Memory) (a x : Nat) (b : Byte) (h : x ≠ a) :
    readByte (writeByte m a b) x = readByte m x := by
  induction m with
  | nil =>
    by_cases hb : b = 0#8
    · simp [writeByte, hb]
    · simp [writeByte, readByte, hb, Ne.symm h]
  | cons c m ih =>
    obtain ⟨k, v⟩ := c
    simp only [writeByte]
    split
    · split
      · rfl
      · simp [readByte, Ne.symm h]
    · split
      · rename_i h1 h2
        subst h2
        split <;> simp [readByte, Ne.symm h]
      · simp only [readByte, ih]

theorem mem_writeByte {m : Memory} {a : Nat} {b : Byte} {c : Host.Cell}
    (h : c ∈ writeByte m a b) : c ∈ m ∨ c = (a, b) := by
  induction m with
  | nil =>
    simp only [writeByte] at h
    split at h <;> simp_all
  | cons k m ih =>
    obtain ⟨k, v⟩ := k
    simp only [writeByte] at h
    split at h
    · split at h
      · exact .inl h
      · rcases List.mem_cons.mp h with h | h
        · exact .inr h
        · exact .inl h
    · split at h
      · rename_i h2
        split at h
        · exact .inl (List.mem_cons_of_mem _ h)
        · rcases List.mem_cons.mp h with h | h
          · exact .inr (by rw [h, h2])
          · exact .inl (List.mem_cons_of_mem _ h)
      · rcases List.mem_cons.mp h with h | h
        · exact .inl (by rw [h]; exact List.mem_cons_self)
        · rcases ih h with h | h
          · exact .inl (List.mem_cons_of_mem _ h)
          · exact .inr h

/-- A write of one byte keeps the canonical form. -/
theorem writeByte_wf {m : Memory} {a : Nat} {b : Byte} (hm : Memory.wf m = true) :
    Memory.wf (writeByte m a b) = true := by
  induction m with
  | nil => by_cases h : b = 0#8 <;> simp [writeByte, Memory.wf, h]
  | cons c m ih =>
    obtain ⟨k, v⟩ := c
    have hm0 := hm
    simp only [Memory.wf, Bool.and_eq_true, List.all_eq_true, decide_eq_true_eq, bne_iff_ne] at hm
    simp only [writeByte]
    split
    · rename_i h
      split
      · exact hm0
      · rename_i hb
        simp only [Memory.wf, Bool.and_eq_true, List.all_eq_true, decide_eq_true_eq, bne_iff_ne]
        refine ⟨⟨hb, ?_⟩, hm⟩
        intro c hc
        rcases List.mem_cons.mp hc with rfl | hc
        · exact h
        · exact Nat.lt_trans h (hm.1.2 c hc)
    · split
      · split
        · exact hm.2
        · rename_i hb
          simp only [Memory.wf, Bool.and_eq_true, List.all_eq_true, decide_eq_true_eq, bne_iff_ne]
          exact ⟨⟨hb, hm.1.2⟩, hm.2⟩
      · simp only [Memory.wf, Bool.and_eq_true, List.all_eq_true, decide_eq_true_eq, bne_iff_ne]
        refine ⟨⟨hm.1.1, ?_⟩, ih hm.2⟩
        intro c hc
        rcases mem_writeByte hc with hc | rfl
        · exact hm.1.2 c hc
        · show k < a
          omega

/-- A write of a byte sequence keeps the canonical form. -/
theorem writeBytes_wf {m : Memory} {a : Nat} {data : List Byte} (hm : Memory.wf m = true) :
    Memory.wf (writeBytes m a data) = true := by
  induction data generalizing m a with
  | nil => exact hm
  | cons b bs ih => exact ih (writeByte_wf hm)

theorem mem_writeBytes {m : Memory} {a : Nat} {data : List Byte} {c : Host.Cell}
    (h : c ∈ writeBytes m a data) : c ∈ m ∨ (a ≤ c.1 ∧ c.1 < a + data.length) := by
  induction data generalizing m a with
  | nil => exact .inl h
  | cons b bs ih =>
    simp only [writeBytes] at h
    rcases ih h with h | h
    · rcases mem_writeByte h with h | rfl
      · exact .inl h
      · exact .inr (by simp)
    · refine .inr ?_
      simp only [List.length_cons]
      omega

theorem readByte_writeBytes_outside (m : Memory) (a x : Nat) (data : List Byte)
    (h : x < a ∨ a + data.length ≤ x) : readByte (writeBytes m a data) x = readByte m x := by
  induction data generalizing m a with
  | nil => rfl
  | cons b bs ih =>
    simp only [List.length_cons] at h
    simp only [writeBytes]
    rw [ih _ _ (by omega), readByte_writeByte_other _ _ _ _ (by omega)]

theorem readByte_writeBytes_inside (m : Memory) (a : Nat) (data : List Byte)
    (hm : Memory.wf m = true) (i : Nat) (h : i < data.length) :
    readByte (writeBytes m a data) (a + i) = data[i] := by
  induction data generalizing m a i with
  | nil => simp at h
  | cons b bs ih =>
    simp only [writeBytes]
    cases i with
    | zero =>
      rw [readByte_writeBytes_outside _ _ _ _ (by omega)]
      exact readByte_writeByte_same m a b hm
    | succ i =>
      have := ih (writeByte m a b) (a + 1) (writeByte_wf hm) i (by simpa using h)
      rw [show a + (i + 1) = a + 1 + i by omega, this]
      rfl

@[simp] theorem readBytes_length (m : Memory) (a : Nat) (n : Nat) :
    (readBytes m a n).length = n := by
  induction n generalizing a with
  | zero => rfl
  | succ n ih => simp [readBytes, ih]

theorem readBytes_get (m : Memory) (a : Nat) (n i : Nat) (h : i < (readBytes m a n).length) :
    (readBytes m a n)[i] = readByte m (a + i) := by
  induction n generalizing a i with
  | zero => simp [readBytes] at h
  | succ n ih =>
    cases i with
    | zero => rfl
    | succ i =>
      simp only [readBytes, List.getElem_cons_succ]
      rw [ih]
      congr 1
      omega

end Sys2Proof
end

