-- ==== Sys2Proof/Laws/State.lean ====
section
/-! SUPPORT. One lemma per field per update of the state, so that no later proof unfolds an update. -/

namespace Sys2Proof.Machine

@[simp] theorem State.respond_root (s : State) (r : Response) : (s.respond r).root = s.root := rfl
@[simp] theorem State.respond_scan (s : State) (r : Response) : (s.respond r).scan = s.scan := rfl
@[simp] theorem State.respond_stopped (s : State) (r : Response) : (s.respond r).stopped = s.stopped := rfl
@[simp] theorem State.respond_refused (s : State) (r : Response) : (s.respond r).refused = s.refused := rfl
@[simp] theorem State.respond_inbox (s : State) (r : Response) : (s.respond r).inbox = s.inbox := rfl
@[simp] theorem State.respond_response (s : State) (r : Response) : (s.respond r).response = some r := rfl

@[simp] theorem State.setRoot_root (s : State) (c : Composite) : (s.setRoot c).root = c := rfl
@[simp] theorem State.setRoot_scan (s : State) (c : Composite) : (s.setRoot c).scan = s.scan := rfl
@[simp] theorem State.setRoot_stopped (s : State) (c : Composite) : (s.setRoot c).stopped = s.stopped := rfl
@[simp] theorem State.setRoot_refused (s : State) (c : Composite) : (s.setRoot c).refused = s.refused := rfl
@[simp] theorem State.setRoot_inbox (s : State) (c : Composite) : (s.setRoot c).inbox = s.inbox := rfl
@[simp] theorem State.setRoot_response (s : State) (c : Composite) : (s.setRoot c).response = s.response := rfl

@[simp] theorem State.setScan_root (s : State) (c : Cursor) : (s.setScan c).root = s.root := rfl
@[simp] theorem State.setScan_scan (s : State) (c : Cursor) : (s.setScan c).scan = c := rfl
@[simp] theorem State.setScan_stopped (s : State) (c : Cursor) : (s.setScan c).stopped = s.stopped := rfl
@[simp] theorem State.setScan_refused (s : State) (c : Cursor) : (s.setScan c).refused = s.refused := rfl
@[simp] theorem State.setScan_inbox (s : State) (c : Cursor) : (s.setScan c).inbox = s.inbox := rfl
@[simp] theorem State.setScan_response (s : State) (c : Cursor) : (s.setScan c).response = s.response := rfl

@[simp] theorem State.stop_root (s : State) (d : Defect) : (s.stop d).root = s.root := rfl
@[simp] theorem State.stop_scan (s : State) (d : Defect) : (s.stop d).scan = s.scan := rfl
@[simp] theorem State.stop_stopped (s : State) (d : Defect) : (s.stop d).stopped = some d := rfl
@[simp] theorem State.stop_refused (s : State) (d : Defect) : (s.stop d).refused = s.refused := rfl
@[simp] theorem State.stop_inbox (s : State) (d : Defect) : (s.stop d).inbox = s.inbox := rfl
@[simp] theorem State.stop_response (s : State) (d : Defect) : (s.stop d).response = s.response := rfl

@[simp] theorem State.markRefused_root (s : State) : (s.markRefused).root = s.root := rfl
@[simp] theorem State.markRefused_scan (s : State) : (s.markRefused).scan = s.scan := rfl
@[simp] theorem State.markRefused_stopped (s : State) : (s.markRefused).stopped = s.stopped := rfl
@[simp] theorem State.markRefused_refused (s : State) : (s.markRefused).refused = true := rfl
@[simp] theorem State.markRefused_inbox (s : State) : (s.markRefused).inbox = s.inbox := rfl
@[simp] theorem State.markRefused_response (s : State) : (s.markRefused).response = s.response := rfl

@[simp] theorem State.setInbox_root (s : State) (l : List Input) : (s.setInbox l).root = s.root := rfl
@[simp] theorem State.setInbox_scan (s : State) (l : List Input) : (s.setInbox l).scan = s.scan := rfl
@[simp] theorem State.setInbox_stopped (s : State) (l : List Input) : (s.setInbox l).stopped = s.stopped := rfl
@[simp] theorem State.setInbox_refused (s : State) (l : List Input) : (s.setInbox l).refused = s.refused := rfl
@[simp] theorem State.setInbox_inbox (s : State) (l : List Input) : (s.setInbox l).inbox = l := rfl
@[simp] theorem State.setInbox_response (s : State) (l : List Input) : (s.setInbox l).response = s.response := rfl

end Sys2Proof.Machine
end

