-- ==== Sys2Proof/Laws/Ops.lean ====
section
/-! SUPPORT. For each shared operation, what it can do, said once. -/

namespace Sys2Proof.Machine

/-! ## Outcomes -/

@[simp] theorem Reply.bind_ok {α β : Type} (a : α) (f : α → Reply β) : (Reply.ok a).bind f = f a := rfl

@[simp] theorem Reply.bind_err {α β : Type} (k : ErrKind) (f : α → Reply β) :
    (Reply.err k : Reply α).bind f = .err k := rfl

@[simp] theorem Reply.bind_fault {α β : Type} (d : Defect) (f : α → Reply β) :
    (Reply.fault d : Reply α).bind f = .fault d := rfl

@[simp] theorem Reply.bind_refused {α β : Type} (q : RefusedReason) (f : α → Reply β) :
    (Reply.refused q : Reply α).bind f = .refused q := rfl

@[simp] theorem Reply.map_ok {α β : Type} (a : α) (f : α → β) : (Reply.ok a).map f = .ok (f a) := rfl

@[simp] theorem Reply.map_err {α β : Type} (k : ErrKind) (f : α → β) :
    (Reply.err k : Reply α).map f = .err k := rfl

@[simp] theorem Reply.map_fault {α β : Type} (d : Defect) (f : α → β) :
    (Reply.fault d : Reply α).map f = .fault d := rfl

@[simp] theorem Reply.map_refused {α β : Type} (q : RefusedReason) (f : α → β) :
    (Reply.refused q : Reply α).map f = .refused q := rfl

theorem Reply.bind_eq_ok {α β : Type} {r : Reply α} {f : α → Reply β} {b : β} :
    r.bind f = .ok b ↔ ∃ a, r = .ok a ∧ f a = .ok b := by
  cases r <;> simp

theorem Reply.map_eq_ok {α β : Type} {r : Reply α} {f : α → β} {b : β} :
    r.map f = .ok b ↔ ∃ a, r = .ok a ∧ f a = b := by
  cases r <;> simp

theorem Reply.map_eq_err {α β : Type} {r : Reply α} {f : α → β} {k : ErrKind} :
    r.map f = .err k ↔ r = .err k := by
  cases r <;> simp

theorem Reply.map_eq_fault {α β : Type} {r : Reply α} {f : α → β} {d : Defect} :
    r.map f = .fault d ↔ r = .fault d := by
  cases r <;> simp

theorem Reply.map_eq_refused {α β : Type} {r : Reply α} {f : α → β} {q : RefusedReason} :
    r.map f = .refused q ↔ r = .refused q := by
  cases r <;> simp

/-! ## Delivery -/

/-- A port command answers a next state only from a block that is not stopped, and that state is the
delivery of its outcome. -/
theorem portCommand_next {s t : State} {r : Reply (Value × State)} (h : portCommand s r = .next t) :
    s.stopped = none ∧ t = deliver s r := by
  unfold portCommand at h
  split at h
  · cases h
  · rename_i hs
    cases h
    exact ⟨hs, rfl⟩

theorem portCommand_running {s : State} {r : Reply (Value × State)} (h : s.stopped = none) :
    portCommand s r = .next (deliver s r) := by
  simp only [portCommand, h]

theorem portCommand_stopped {s : State} {r : Reply (Value × State)} {d : Defect}
    (h : s.stopped = some d) : portCommand s r = .fault (.blockStopped d) := by
  simp only [portCommand, h]

theorem portQuery_running {s : State} {r : Reply Value} (h : s.stopped = none) :
    portQuery s r = .next (deliver s (r.map fun v => (v, s))) := portCommand_running h

@[simp] theorem deliver_ok (s t : State) (v : Value) : deliver s (.ok (v, t)) = t.respond (.ok v) := rfl

@[simp] theorem deliver_err (s : State) (k : ErrKind) : deliver s (.err k) = s.respond (.err k) := rfl

@[simp] theorem deliver_fault (s : State) (d : Defect) :
    deliver s (.fault d) = (s.stop d).respond (.fault d) := rfl

@[simp] theorem deliver_refused (s : State) (q : RefusedReason) :
    deliver s (.refused q) = s.markRefused.respond (.refused q) := rfl

@[simp] theorem hostRun_ok (s : State) (v : Value) : hostRun s (.ok v) = .next (s.respond (.ok v)) := by
  unfold hostRun
  split <;> rfl

@[simp] theorem hostRun_err (s : State) (k : ErrKind) :
    hostRun s (.err k) = .next (s.respond (.err k)) := by
  unfold hostRun
  split <;> rfl

theorem hostRun_running {s : State} {r : Reply Value} (h : s.stopped = none) :
    hostRun s r = .next (deliver s (r.map fun v => (v, s))) := by
  simp only [hostRun, h]

theorem hostRun_stopped {s : State} {r : Reply Value} {d : Defect} (h : s.stopped = some d) :
    hostRun s r = .next (s.respond r) := by
  simp only [hostRun, h]

/-- What a constructor's run answers: from a running block the delivery of its outcome, from a stopped one
its response alone. -/
theorem hostRun_next {s t : State} {r : Reply Value} (h : hostRun s r = .next t) :
    (s.stopped = none ∧ t = deliver s (r.map fun v => (v, s)))
      ∨ (s.stopped ≠ none ∧ t = s.respond r) := by
  cases hs : s.stopped with
  | none =>
    rw [hostRun_running hs] at h
    cases h
    exact .inl ⟨rfl, rfl⟩
  | some d =>
    rw [hostRun_stopped hs] at h
    cases h
    exact .inr ⟨nofun, rfl⟩

/-! ## Checked arithmetic -/

theorem checkedAdd_ok {p : Params} {a b c : Nat} :
    checkedAdd p a b = .ok c ↔ a + b ≤ p.maxAddr ∧ c = a + b := by
  unfold checkedAdd
  split <;> simp_all [eq_comm]

theorem toAddr_ok {p : Params} {n c : Nat} : toAddr p n = .ok c ↔ n ≤ p.maxAddr ∧ c = n := by
  unfold toAddr
  split <;> simp_all [eq_comm]

/-! ## Lookup and translation -/

theorem covers_iff {off a : Nat} {sub : Space} :
    covers off sub a = true ↔ off ≤ a ∧ a < off + sub.size := by
  simp [covers]

/-- An entry that covers the address translates it: no defect (20_memory.md R62). -/
theorem translate_of_covers {off a : Nat} {sub : Space} (h : covers off sub a = true) :
    translate off a = .ok (a - off) := by
  have := (covers_iff.mp h).1
  simp [translate, checkedSub, this]

/-- What `find` found is an entry of the table, at its index, and it covers the address (R110). -/
theorem find_some {es : Regions} {a : Nat} {f : Found} (h : find es a = some f) :
    es.get? f.index = some (f.offset, f.sub) ∧ covers f.offset f.sub a = true := by
  match es with
  | .nil => simp [find] at h
  | .cons off sub rest =>
    simp only [find] at h
    split at h
    · rename_i hc
      cases h
      exact ⟨rfl, hc⟩
    · simp only [Option.map_eq_some_iff] at h
      obtain ⟨g, hg, rfl⟩ := h
      have ih := find_some hg
      exact ih

/-- Where `find` finds nothing, no entry covers the address (R110). -/
theorem find_none {es : Regions} {a : Nat} (h : find es a = none) {k off : Nat} {sub : Space}
    (hk : es.get? k = some (off, sub)) : covers off sub a = false := by
  match es, k with
  | .nil, _ => simp [Regions.get?] at hk
  | .cons o s rest, 0 =>
    simp only [Regions.get?, Option.some.injEq, Prod.mk.injEq] at hk
    obtain ⟨rfl, rfl⟩ := hk
    simp only [find] at h
    split at h
    · cases h
    · rename_i hc
      simpa using hc
  | .cons o s rest, k + 1 =>
    simp only [find] at h
    split at h
    · cases h
    · exact find_none (by simpa using h) (by simpa [Regions.get?] using hk)

/-! ## Reading -/

/-- The read of a composite's entries, by the entry `find` gives (R98). -/
theorem readEntries_eq {es : Regions} {start stop : Nat} :
    readEntries es start stop =
      match find es start with
      | none => .err .invalidAccess
      | some f =>
        if stop - f.offset > f.sub.size then .err .invalidAccess
        else memRead f.sub (start - f.offset) (stop - f.offset) := by
  match es with
  | .nil => rfl
  | .cons off sub rest =>
    simp only [readEntries, find]
    split
    · rename_i hc
      simp [translate_of_covers hc]
    · rw [readEntries_eq]
      cases find rest start <;> rfl

/-- The Sparse read (R98) for a span that is not reversed. -/
theorem memRead_sparse {t : Nat} {es : Regions} {start stop : Nat} (h : start ≤ stop) :
    memRead (.sparse t es) start stop =
      match find es start with
      | none => .err .invalidAccess
      | some f =>
        if stop - f.offset > f.sub.size then .err .invalidAccess
        else memRead f.sub (start - f.offset) (stop - f.offset) := by
  rw [memRead, if_neg (by omega), readEntries_eq]

/-- A reversed range fails first, whatever the space (R94). -/
theorem memRead_reversed {sp : Space} {start stop : Nat} (h : start > stop) :
    memRead sp start stop = .err .underflow := by
  cases sp <;> simp [memRead, h]

/-- The read of a leaf store inside its size (R95 to R97). -/
theorem memRead_dense {d : Dense} {start stop : Nat} (h : start ≤ stop) (hs : stop ≤ d.size) :
    memRead (.dense d) start stop = .ok (readBytes d.bytes start (stop - start)) := by
  rw [memRead, if_neg (by omega), denseRead, if_neg (by omega)]

theorem memRead_rom {d : Dense} {start stop : Nat} (h : start ≤ stop) (hs : stop ≤ d.size) :
    memRead (.rom d) start stop = .ok (readBytes d.bytes start (stop - start)) := by
  rw [memRead, if_neg (by omega), denseRead, if_neg (by omega)]

theorem memRead_zero {n start stop : Nat} (h : start ≤ stop) (hs : stop ≤ n) :
    memRead (.zero n) start stop = .ok (List.replicate (stop - start) 0#8) := by
  rw [memRead, if_neg (by omega), zeroRead, if_neg (by omega)]

/-- A read answers OK or ERR, at every depth: no defect, no refusal (20_memory.md R62). -/
theorem memRead_plain (sp : Space) : ∀ a b,
    (∀ d, memRead sp a b ≠ .fault d) ∧ (∀ q, memRead sp a b ≠ .refused q) := by
  induction sp using Space.rec (motive_2 := fun es => ∀ a b,
    (∀ d, readEntries es a b ≠ .fault d) ∧ (∀ q, readEntries es a b ≠ .refused q)) with
  | dense d => intro a b; simp only [memRead, denseRead]; split <;> [simp; (split <;> simp)]
  | zero n => intro a b; simp only [memRead, zeroRead]; split <;> [simp; (split <;> simp)]
  | rom d => intro a b; simp only [memRead, denseRead]; split <;> [simp; (split <;> simp)]
  | sparse t es ih => intro a b; simp only [memRead]; split <;> [simp; exact ih a b]
  | nil => simp [readEntries]
  | cons off sub rest ih1 ih2 =>
    rename_i a b
    simp only [readEntries]
    split
    · rename_i hc
      rw [translate_of_covers hc]
      simp only [Reply.bind_ok]
      split <;> [simp; exact ih1 _ _]
    · exact ih2 a b

/-! ## Writing -/

/-- A Dense write that answers OK stores the data inside the size, and nothing else (R102). -/
theorem denseWrite_ok {p : Params} {d d' : Dense} {addr : Nat} {data : List Byte} :
    denseWrite p d addr data = .ok d' ↔
      data.length ≤ p.maxAddr ∧ addr + data.length ≤ p.maxAddr ∧ addr + data.length ≤ d.size
        ∧ d' = { d with bytes := writeBytes d.bytes addr data } := by
  simp only [denseWrite, Reply.bind_eq_ok, toAddr_ok, checkedAdd_ok]
  constructor
  · rintro ⟨k, ⟨h1, rfl⟩, e, ⟨h2, rfl⟩, h⟩
    split at h
    · cases h
    · cases h
      exact ⟨h1, h2, by omega, rfl⟩
  · rintro ⟨h1, h2, h3, rfl⟩
    refine ⟨_, ⟨h1, rfl⟩, _, ⟨h2, rfl⟩, ?_⟩
    rw [if_neg (by omega)]

/-- A write to a composite's entries that answers OK wrote, in one entry that covers the address, a
span that fits, by a write that answered OK; the other entries stay (R105). -/
theorem writeEntries_cons_ok {p : Params} {off : Nat} {sub : Space} {rest es' : Regions} {addr : Nat}
    {data : List Byte} (h : writeEntries p (.cons off sub rest) addr data = .ok es') :
    (∃ sub', covers off sub addr = true ∧ addr - off + data.length ≤ sub.size
        ∧ memWrite p sub (addr - off) data = .ok sub' ∧ es' = .cons off sub' rest)
      ∨ (∃ rest', covers off sub addr = false ∧ writeEntries p rest addr data = .ok rest'
        ∧ es' = .cons off sub rest') := by
  simp only [writeEntries] at h
  split at h
  · rename_i hc
    rw [translate_of_covers hc] at h
    simp only [Reply.bind_ok, Reply.bind_eq_ok, toAddr_ok, checkedAdd_ok] at h
    obtain ⟨k, ⟨_, rfl⟩, e, ⟨_, rfl⟩, h⟩ := h
    split at h
    · cases h
    · obtain ⟨sub', hw, rfl⟩ := Reply.map_eq_ok.mp h
      exact .inl ⟨sub', hc, by omega, hw, rfl⟩
  · rename_i hc
    obtain ⟨rest', hw, rfl⟩ := Reply.map_eq_ok.mp h
    exact .inr ⟨rest', by simpa using hc, hw, rfl⟩

/-- A write that answers OK keeps the size and the kind of the space. -/
theorem memWrite_size {p : Params} {sp sp' : Space} {addr : Nat} {data : List Byte}
    (h : memWrite p sp addr data = .ok sp') : sp'.size = sp.size ∧ sp'.kind = sp.kind := by
  cases sp with
  | dense d =>
    obtain ⟨d', hd, rfl⟩ := Reply.map_eq_ok.mp h
    obtain ⟨_, _, _, rfl⟩ := denseWrite_ok.mp hd
    exact ⟨rfl, rfl⟩
  | zero n => cases h
  | rom d => cases h
  | sparse t es =>
    obtain ⟨es', _, rfl⟩ := Reply.map_eq_ok.mp h
    exact ⟨rfl, rfl⟩

theorem denseWrite_plain (p : Params) (d : Dense) (a : Nat) (x : List Byte) :
    (∀ e, denseWrite p d a x ≠ .fault e) ∧ (∀ q, denseWrite p d a x ≠ .refused q) := by
  simp only [denseWrite, toAddr, checkedAdd]
  split <;> [skip; simp]
  simp only [Reply.bind_ok]
  split <;> [skip; simp]
  simp only [Reply.bind_ok]
  split <;> simp

/-- A write answers OK or ERR, at every depth: no defect, no refusal (20_memory.md R62). -/
theorem memWrite_plain (p : Params) (sp : Space) : ∀ a x,
    (∀ d, memWrite p sp a x ≠ .fault d) ∧ (∀ q, memWrite p sp a x ≠ .refused q) := by
  induction sp using Space.rec (motive_2 := fun es => ∀ a x,
    (∀ d, writeEntries p es a x ≠ .fault d) ∧ (∀ q, writeEntries p es a x ≠ .refused q)) with
  | dense d =>
    intro a b
    simp only [memWrite, ne_eq, Reply.map_eq_fault, Reply.map_eq_refused]
    exact denseWrite_plain _ _ _ _
  | zero n => intro a b; simp [memWrite]
  | rom d => intro a b; simp [memWrite]
  | sparse t es ih =>
    intro a b
    simp only [memWrite, ne_eq, Reply.map_eq_fault, Reply.map_eq_refused]
    exact ih a b
  | nil => simp [writeEntries]
  | cons off sub rest ih1 ih2 =>
    rename_i a b
    simp only [writeEntries]
    split
    · rename_i hc
      rw [translate_of_covers hc]
      simp only [Reply.bind_ok, toAddr, checkedAdd]
      split <;> [skip; simp]
      simp only [Reply.bind_ok]
      split <;> [skip; simp]
      simp only [Reply.bind_ok]
      split <;> [simp; skip]
      simp only [ne_eq, Reply.map_eq_fault, Reply.map_eq_refused]; exact ih1 _ _
    · simp only [ne_eq, Reply.map_eq_fault, Reply.map_eq_refused]; exact ih2 _ _

/-! ## Registration -/

/-- A registration that answers OK passed the bound, the overlap and the capacity checks, and inserted
the entry at its sorted slot (R117). -/
theorem registerSpace_ok {p : Params} {parent c : Composite} {off k : Nat} {sub : Space} :
    registerSpace p parent off sub = .ok (c, k) ↔
      off + sub.size ≤ p.maxAddr ∧ off + sub.size ≤ parent.total
        ∧ overlapsAny off (off + sub.size) parent.entries = false
        ∧ tableFull p parent.entries = false
        ∧ k = sortedSlot off parent.entries
        ∧ c = { parent with entries := insertAt off sub k parent.entries } := by
  simp only [registerSpace, Reply.bind_eq_ok, checkedAdd_ok]
  constructor
  · rintro ⟨e, ⟨h1, rfl⟩, h⟩
    split at h
    · cases h
    · split at h
      · cases h
      · split at h
        · cases h
        · cases h
          refine ⟨h1, by omega, ?_, ?_, rfl, rfl⟩ <;> simp_all
  · rintro ⟨h1, h2, h3, h4, rfl, rfl⟩
    refine ⟨_, ⟨h1, rfl⟩, ?_⟩
    rw [if_neg (by omega)]
    simp [h3, h4]

theorem Regions.all_iff {f : Nat → Space → Bool} {es : Regions} :
    es.all f = true ↔ ∀ k off sub, es.get? k = some (off, sub) → f off sub = true := by
  match es with
  | .nil => simp [Regions.all, Regions.get?]
  | .cons o s rest =>
    simp only [Regions.all, Bool.and_eq_true]
    rw [Regions.all_iff (es := rest)]
    constructor
    · rintro ⟨h0, h⟩ k off sub hk
      cases k with
      | zero =>
        simp only [Regions.get?, Option.some.injEq, Prod.mk.injEq] at hk
        obtain ⟨rfl, rfl⟩ := hk
        exact h0
      | succ k => exact h k off sub hk
    · intro h
      exact ⟨h 0 o s rfl, fun k off sub hk => h (k + 1) off sub hk⟩

/-- No entry overlaps the range (R115). -/
theorem overlapsAny_false {a0 a1 : Nat} {es : Regions} :
    overlapsAny a0 a1 es = false ↔
      ∀ k o s, es.get? k = some (o, s) → overlaps a0 a1 o (o + s.size) = false := by
  simp only [overlapsAny, Bool.not_eq_false']
  rw [Regions.all_iff]
  simp

/-- A registration raises no defect. -/
theorem registerSpace_plain (p : Params) (c : Composite) (off : Nat) (sub : Space) :
    ∀ e, registerSpace p c off sub ≠ .fault e := by
  simp only [registerSpace, checkedAdd]
  split <;> [skip; simp]
  simp only [Reply.bind_ok]
  split <;> [simp; (split <;> [simp; (split <;> simp)])]

/-! ## Bit fields -/

/-- A collection that answers OK took a field that fits its target and the window, and moved the cursor
past it (R136). -/
theorem collect_ok {c c' : Cursor} {w target v : Nat} :
    collect c w target = .ok (v, c') ↔
      w ≤ target ∧ w ≤ c.left ∧ v = field c.window c.pos w ∧ c' = { c with pos := c.pos + w } := by
  unfold collect
  split
  · simp; omega
  · split
    · simp; omega
    · constructor
      · rintro h
        cases h
        exact ⟨by omega, by omega, rfl, rfl⟩
      · rintro ⟨_, _, rfl, rfl⟩
        rfl

theorem collect_fits {c : Cursor} {w t : Nat} (h : w ≤ t) (hl : w ≤ c.left) :
    collect c w t = .ok (field c.window c.pos w, { c with pos := c.pos + w }) :=
  collect_ok.mpr ⟨h, hl, rfl, rfl⟩

theorem collect_short {c : Cursor} {w t : Nat} (h : w ≤ t) (hl : c.left < w) :
    collect c w t = .err .exhausted := by
  simp only [collect]; rw [if_neg (by omega), if_pos (by omega)]

/-- A field value lies below `2^n` (R137). -/
theorem field_lt (w : List Byte) (pos n : Nat) : field w pos n < 2 ^ n := by
  induction n with
  | zero => simp [field]
  | succ n ih =>
    have : (windowBit w (pos+n)).toNat ≤ 1 := Bool.toNat_le _
    simp only [field, Nat.shiftLeft_eq, Nat.pow_succ]
    have : (windowBit w (pos+n)).toNat * 2^n ≤ 1 * 2^n := Nat.mul_le_mul_right _ this
    omega

/-- Bit `i` of a field is bit `pos + i` of the window (R137). -/
theorem field_testBit (w : List Byte) (pos n i : Nat) :
    (field w pos n).testBit i = (decide (i < n) && windowBit w (pos + i)) := by
  induction n with
  | zero => simp [field]
  | succ n ih =>
    rw [field, Nat.shiftLeft_eq, Nat.add_comm, Nat.mul_comm,
      Nat.testBit_two_pow_mul_add _ (field_lt w pos n)]
    split
    · rename_i h
      simp [ih, h, Nat.lt_succ_of_lt h]
    · rename_i h
      by_cases h2 : i = n
      · subst h2
        cases windowBit w (pos + i) <;> simp
      · have h3 : ¬ i < n + 1 := by omega
        have h4 : (windowBit w (pos + n)).toNat < 2 ^ (i - n) := by
          have h5 := Bool.toNat_le (windowBit w (pos + n))
          have h6 := Nat.pow_le_pow_right (n := 2) (by decide) (show 1 ≤ i - n by omega)
          omega
        simp [h3, Nat.testBit_lt_two_pow h4]

/-- The block's memory right after reset has its canonical form, at every level (10_state.md R42). -/
theorem reset_root_wf : State.reset.root.wf Config.params = true := by
  have h := params_legal.2.1
  simp only [Composite.wf, Composite.toSpace, State.reset, Space.wf, Regions.wf, Regions.count,
    tableFits_zero, Bool.and_true, decide_eq_true_eq]
  exact h

end Sys2Proof.Machine
end

