-- ==== Sys2Proof/Laws/PerInstr.lean ====
section
/-! SUPPORT. What is said of every instruction, one lemma per constructor: the encoded request carries the
code of the instruction's row in the opcode table. -/

namespace Sys2Proof

/-- A request is one of the port's, and carries the command code `code` (30_encoding.md R69). -/
def Request.isPort (code : BitVec 5) : Request → Prop
  | .port r => r.cmd = code ∧ isConstructorCode r.cmd = false
  | _ => False

/-- A request is an entry of the host's command log, and carries the constructor code `code` (R70). -/
def Request.isHost (code : BitVec 5) : Request → Prop
  | .host r => r.cmd = code ∧ isConstructorCode r.cmd = true
  | _ => False

/-- A request is a window whose first two bytes hold the opcode `op` and the format code `fmt` at their
places (R74, R88). -/
def Request.isRow (op : BitVec 4) (fmt : BitVec 3) : Request → Prop
  | .insn (b0 :: b1 :: _) => hdrOp (headerWord b0 b1) = op ∧ hdrFmt (headerWord b0 b1) = fmt
  | _ => False

/-- The row of an instruction, at the places where the opcode table puts its code. -/
def Laws.CarriesCode.Statement (i : Instr) : Prop :=
  match i with
  | .size => (encode i).isPort 0x00
  | .read _ _ => (encode i).isPort 0x01
  | .write _ _ => (encode i).isPort 0x02
  | .find _ => (encode i).isPort 0x03
  | .addSpace _ _ => (encode i).isPort 0x04
  | .scanLoad _ => (encode i).isPort 0x08
  | .peekBit => (encode i).isPort 0x09
  | .nextBit => (encode i).isPort 0x0A
  | .collect _ _ => (encode i).isPort 0x0B
  | .collectType _ => (encode i).isPort 0x0C
  | .isAligned _ => (encode i).isPort 0x0D
  | .bitsLeft => (encode i).isPort 0x0E
  | .atLeast _ => (encode i).isPort 0x0F
  | .decode _ => (encode i).isPort 0x10
  | .newDense _ => (encode i).isHost 0x18
  | .newZero _ => (encode i).isHost 0x19
  | .newRom _ => (encode i).isHost 0x1A
  | .romLoad _ _ _ => (encode i).isHost 0x1B
  | .newSparse _ => (encode i).isHost 0x1C
  | .sparseAdd _ _ _ => (encode i).isHost 0x1D
  | .hdrFmt000 op _ _ _ _ => (encode i).isRow op 0
  | .hdrFmt001 op _ _ _ _ => (encode i).isRow op 1
  | .hdrFmt010 op _ _ _ _ => (encode i).isRow op 2
  | .hdrFmt011 op _ _ _ _ => (encode i).isRow op 3
  | .hdrFmt100 op _ _ _ _ => (encode i).isRow op 4
  | .hdrFmt101 op _ _ _ _ => (encode i).isRow op 5
  | .hdrFmt110 op _ _ _ _ => (encode i).isRow op 6
  | .hdrFmt111 op _ _ _ _ => (encode i).isRow op 7
  | .mov _ fmt _ _ _ => (encode i).isRow 1 fmt

namespace Laws.CarriesCode

theorem header (op : BitVec 4) (out : RegCode) (fmt : BitVec 3) (r1 r2 : RegCode) (trail : List Byte) :
    (Request.insn (headerBytes op out fmt r1 r2 ++ trail)).isRow op fmt := by
  show hdrOp (headerWord _ _) = op ∧ hdrFmt (headerWord _ _) = fmt
  rw [headerWord_wordBytes]
  simp

theorem size : Statement .size := ⟨rfl, rfl⟩
theorem read (a b) : Statement (.read a b) := ⟨rfl, rfl⟩
theorem write (a b) : Statement (.write a b) := ⟨rfl, rfl⟩
theorem find (a) : Statement (.find a) := ⟨rfl, rfl⟩
theorem addSpace (a b) : Statement (.addSpace a b) := ⟨rfl, rfl⟩
theorem scanLoad (a) : Statement (.scanLoad a) := ⟨rfl, rfl⟩
theorem peekBit : Statement .peekBit := ⟨rfl, rfl⟩
theorem nextBit : Statement .nextBit := ⟨rfl, rfl⟩
theorem collect (a b) : Statement (.collect a b) := ⟨rfl, rfl⟩
theorem collectType (a) : Statement (.collectType a) := ⟨rfl, rfl⟩
theorem isAligned (a) : Statement (.isAligned a) := ⟨rfl, rfl⟩
theorem bitsLeft : Statement .bitsLeft := ⟨rfl, rfl⟩
theorem atLeast (a) : Statement (.atLeast a) := ⟨rfl, rfl⟩
theorem decode (a) : Statement (.decode a) := ⟨rfl, rfl⟩
theorem newDense (a) : Statement (.newDense a) := ⟨rfl, rfl⟩
theorem newZero (a) : Statement (.newZero a) := ⟨rfl, rfl⟩
theorem newRom (a) : Statement (.newRom a) := ⟨rfl, rfl⟩
theorem romLoad (a b c) : Statement (.romLoad a b c) := ⟨rfl, rfl⟩
theorem newSparse (a) : Statement (.newSparse a) := ⟨rfl, rfl⟩
theorem sparseAdd (a b c) : Statement (.sparseAdd a b c) := ⟨rfl, rfl⟩
theorem hdrFmt000 (op out r1 r2 l) : Statement (.hdrFmt000 op out r1 r2 l) := header op out 0 r1 r2 l
theorem hdrFmt001 (op out r1 r2 l) : Statement (.hdrFmt001 op out r1 r2 l) := header op out 1 r1 r2 l
theorem hdrFmt010 (op out r1 r2 l) : Statement (.hdrFmt010 op out r1 r2 l) := header op out 2 r1 r2 l
theorem hdrFmt011 (op out r1 r2 l) : Statement (.hdrFmt011 op out r1 r2 l) := header op out 3 r1 r2 l
theorem hdrFmt100 (op out r1 r2 l) : Statement (.hdrFmt100 op out r1 r2 l) := header op out 4 r1 r2 l
theorem hdrFmt101 (op out r1 r2 l) : Statement (.hdrFmt101 op out r1 r2 l) := header op out 5 r1 r2 l
theorem hdrFmt110 (op out r1 r2 l) : Statement (.hdrFmt110 op out r1 r2 l) := header op out 6 r1 r2 l
theorem hdrFmt111 (op out r1 r2 l) : Statement (.hdrFmt111 op out r1 r2 l) := header op out 7 r1 r2 l
theorem mov (out fmt r1 r2 l) : Statement (.mov out fmt r1 r2 l) := header 1 out fmt r1 r2 l

end Laws.CarriesCode

end Sys2Proof
end

