-- ==== Sys2Proof/Laws/Safety.lean ====
section
/-! SUPPORT. What the checks of WellFormed say of a Space operand, and which byte a leaf store reads. -/

namespace Sys2Proof.Machine

theorem built_iff {p : Params} {sp : Space} :
    sp.built p = true ↔ sp.wf p = true ∧ sp.unwritten = true := by
  simp [Space.built]

@[simp] theorem unwritten_dense (d : Dense) : (Space.dense d).unwritten = true ↔ d.bytes = [] := by
  simp [Space.unwritten]

@[simp] theorem unwritten_zero (n : Nat) : (Space.zero n).unwritten = true := rfl

@[simp] theorem unwritten_rom (d : Dense) : (Space.rom d).unwritten = true := rfl

@[simp] theorem unwritten_sparse (t : Nat) (es : Regions) :
    (Space.sparse t es).unwritten = es.unwritten := rfl

/-- One byte of a composite is the byte of the entry that contains the address (40_router.md R98). -/
theorem byteAt_sparse (t : Nat) (es : Regions) (a : Nat) :
    byteAt (.sparse t es) a =
      match find es a with
      | none => .err .invalidAccess
      | some f => byteAt f.sub (a - f.offset) := by
  rw [byteAt, memRead_sparse (by omega)]
  cases h : find es a with
  | none => rfl
  | some f =>
    have hc := covers_iff.mp (find_some h).2
    simp only [byteAt]
    rw [if_neg (by omega)]
    congr 1
    omega

/-- A Space that no WRITE has reached reads 0 at every address of a store that is no ROM, at any level of
nesting (20_memory.md R63, 40_router.md R123). -/
theorem byteAt_unwritten (sp : Space) : ∀ a k, sp.unwritten = true → leafKindAt sp a = some k → k ≠ .rom →
    byteAt sp a = .ok [0#8] := by
  induction sp using Space.rec (motive_2 := fun es => ∀ t a k, es.unwritten = true →
    leafKindIn es a = some k → k ≠ .rom → byteAt (.sparse t es) a = .ok [0#8]) with
  | dense d =>
    intro a k hu hl _
    obtain ⟨n, bytes⟩ := d
    rw [unwritten_dense] at hu
    subst hu
    by_cases h : a < n
    · rw [byteAt, memRead_dense (by omega) h]
      simp [readBytes, readByte]
    · simp [leafKindAt, h] at hl
  | zero n =>
    intro a k _ hl _
    by_cases h : a < n
    · rw [byteAt, memRead_zero (by omega) h]
      simp
    · simp [leafKindAt, h] at hl
  | rom d =>
    intro a k _ hl hk
    by_cases h : a < d.size <;> simp [leafKindAt, h] at hl
    exact absurd hl.symm hk
  | sparse t es ih => exact ih t
  | nil =>
    rename_i hl _
    simp [leafKindIn] at hl
  | cons off sub rest ih1 ih2 =>
    rename_i t a k hu hl hk
    simp only [Regions.unwritten, Bool.and_eq_true] at hu
    simp only [leafKindIn] at hl
    rw [byteAt_sparse, find]
    by_cases hc : covers off sub a = true
    · rw [if_pos hc] at hl ⊢
      exact ih1 _ k hu.1 hl hk
    · rw [if_neg hc] at hl ⊢
      have h := ih2 t a k hu.2 hl hk
      rw [byteAt_sparse] at h
      cases hf : find rest a with
      | none => rw [hf] at h; cases h
      | some f => rw [hf] at h; exact h

end Sys2Proof.Machine
end

