-- ==== Sys2Proof/Tests/Slice0.lean ====
section
/-! SUPPORT. Tests: ill-formed terms that each check refuses, words and records written out from the tables
of 30_encoding.md, the vectors of 95_test_vectors.md (its names in the docstrings), and for every statement
with hypotheses a state and operands that meet them. -/

namespace Sys2Proof.Tests

open Sys2Proof Sys2Proof.Machine

/-! ## Helpers -/

/-- The parameters of the spec's test vectors, with opcode 2 invalid and one legal format table. -/
def p32 : Params :=
  { addrBits := 32, rootTotal := 0x10000
    opcodeMap := fun op => if op = 1#4 then some .mov else if op = 2#4 then none else some (.other op.toNat)
    formatTable := someFormatTable, maxRegions := none, maxWindow := none }

/-- The parameters of the overflow vectors. -/
def p8 : Params := { p32 with addrBits := 8, rootTotal := 0xFF }

/-- An empty Dense store. -/
def dn (n : Nat) : Space := .dense ⟨n, []⟩

/-- A state right after reset, with this root table and this scanner unit. -/
def st (total : Nat) (es : Regions) (window : List Byte) (pos : Nat) : State :=
  { root := ⟨total, es⟩, scan := ⟨window, pos⟩, stopped := none, refused := false, inbox := []
    response := none }

/-- The table of the start state M1 (section 2.2 of the vectors). -/
def m1 : Regions :=
  .cons 0 (.rom ⟨0x100, [(0, 0xDE#8), (1, 0xAD#8), (2, 0xBE#8), (3, 0xEF#8)]⟩)
    (.cons 0x9F00 (.zero 0x100) (.cons 0xA000 (dn 0x400) (.cons 0xA400 (dn 0) .nil)))

/-- The scanner unit over the two bytes of scenario 1. -/
def acac (pos : Nat) : State := st 0 .nil [0xAC#8, 0xAC#8] pos

/-! ## Each check refuses an ill-formed term -/

theorem test_wf_memory :
    Memory.wf [(1, 1#8), (0, 1#8)] = false ∧ Memory.wf [(0, 0#8)] = false
      ∧ Memory.wf [(0, 1#8), (1, 1#8)] = true := by decide

theorem test_wf_dense :
    Dense.wf p8 ⟨256, []⟩ = false ∧ Dense.wf p8 ⟨4, [(4, 1#8)]⟩ = false
      ∧ Dense.wf p8 ⟨4, [(1, 0#8)]⟩ = false ∧ Dense.wf p8 ⟨4, [(3, 1#8)]⟩ = true := by decide

theorem test_wf_space :
    Space.wf p8 (.zero 256) = false ∧ Space.wf p8 (.rom ⟨256, []⟩) = false
      ∧ Space.wf p8 (.sparse 256 .nil) = false
      ∧ Space.wf { p8 with maxRegions := some 0 } (.sparse 16 (.cons 0 (dn 4) .nil)) = false := by decide

theorem test_wf_regions :
    Regions.wf p8 16 (.cons 0 (.zero 256) .nil) = false
      ∧ Regions.wf p8 16 (.cons 13 (dn 4) .nil) = false
      ∧ Regions.wf p8 16 (.cons 8 (dn 4) (.cons 0 (dn 4) .nil)) = false
      ∧ Regions.wf p8 16 (.cons 0 (dn 4) (.cons 3 (dn 4) .nil)) = false
      ∧ Regions.wf p8 16 (.cons 0 (dn 4) (.cons 4 (dn 4) .nil)) = true := by decide

theorem test_wf_instr_addresses :
    ([.read 256 0, .read 0 256, .write 256 [], .find 256, .addSpace 256 (dn 0), .addSpace 0 (.zero 256),
      .newDense 256, .newZero 256, .newRom 256, .romLoad ⟨256, []⟩ 0 [], .romLoad ⟨0, []⟩ 256 [],
      .newSparse 256, .sparseAdd ⟨256, .nil⟩ 0 (dn 0), .sparseAdd ⟨0, .nil⟩ 256 (dn 0),
      .sparseAdd ⟨0, .nil⟩ 0 (.zero 256)] : List Instr).all (fun i => !i.wf p8) = true := by decide

theorem test_wf_instr_opcode :
    ([.hdrFmt000 1 0 0 0 [], .hdrFmt001 1 0 0 0 [], .hdrFmt010 1 0 0 0 [], .hdrFmt011 1 0 0 0 [],
      .hdrFmt100 1 0 0 0 [], .hdrFmt101 1 0 0 0 [], .hdrFmt110 1 0 0 0 [], .hdrFmt111 1 0 0 0 []]
      : List Instr).all (fun i => !i.wf p8) = true := by decide

theorem test_wf_record :
    ([{ Record.ofCode 0 with addrA := 256 }, { Record.ofCode 0 with addrB := 256 },
      { Record.ofCode 0 with space := .zero 256 }, { Record.ofCode 0 with rom := ⟨256, []⟩ },
      { Record.ofCode 0 with parent := ⟨256, .nil⟩ }] : List Record).all
        (fun r => !r.wf p8 && !Input.wf p8 (.request (.port r)) && !Input.wf p8 (.request (.host r)))
      = true := by decide

/-- Nothing but a constructor's result is a Space operand: a Dense value that holds a byte is refused, alone,
nested, or in the parent; a ROM's image, and the same Dense value in the root, are not (R63, R123, R126). -/
theorem test_wf_unwritten :
    ([.addSpace 0 (.dense ⟨1, [(0, 7#8)]⟩), .addSpace 0 (.sparse 1 (.cons 0 (.dense ⟨1, [(0, 7#8)]⟩) .nil)),
      .sparseAdd ⟨1, .nil⟩ 0 (.dense ⟨1, [(0, 7#8)]⟩),
      .sparseAdd ⟨1, .cons 0 (.dense ⟨1, [(0, 7#8)]⟩) .nil⟩ 1 (dn 0)] : List Instr).all
        (fun i => !i.wf p8) = true
    ∧ ([{ Record.ofCode 0 with space := .dense ⟨1, [(0, 7#8)]⟩ },
      { Record.ofCode 0 with parent := ⟨1, .cons 0 (.dense ⟨1, [(0, 7#8)]⟩) .nil⟩ }] : List Record).all
        (fun r => !r.wf p8) = true
    ∧ (Instr.addSpace 0 (.rom ⟨1, [(0, 7#8)]⟩)).wf p8 = true
    ∧ Composite.wf p8 ⟨1, .cons 0 (.dense ⟨1, [(0, 7#8)]⟩) .nil⟩ = true := by decide

theorem test_legal_format_table :
    legalFormatTable someFormatTable = true
      ∧ legalFormatTable (fun _ => (.raw, .const)) = false
      ∧ legalFormatTable (fun c => if c = 2#3 then (.const, .const) else someFormatTable c) = false
      ∧ legalFormatTable (fun c => if c = 1#3 then (.ind, .ind) else someFormatTable c) = false := by decide

/-! ## Decoding: records and words written out from the encoding tables -/

/-- Command codes 0x00 to 0x10 at the port, operands in the lanes of their kinds (R69). -/
theorem test_decode_port (a b n : Nat) (d : List Byte) (sp : Space) (w : BitVec 7) (t : BitVec 2) :
    decode (.port (Record.ofCode 0x00)) = .ok .size
    ∧ decode (.port { Record.ofCode 0x01 with addrA := a, addrB := b }) = .ok (.read a b)
    ∧ decode (.port { Record.ofCode 0x02 with addrA := a, bytes := d }) = .ok (.write a d)
    ∧ decode (.port { Record.ofCode 0x03 with addrA := a }) = .ok (.find a)
    ∧ decode (.port { Record.ofCode 0x04 with addrA := a, space := sp }) = .ok (.addSpace a sp)
    ∧ decode (.port { Record.ofCode 0x08 with bytes := d }) = .ok (.scanLoad d)
    ∧ decode (.port (Record.ofCode 0x09)) = .ok .peekBit
    ∧ decode (.port (Record.ofCode 0x0A)) = .ok .nextBit
    ∧ decode (.port { Record.ofCode 0x0B with w := w, t := t }) = .ok (.collect w t)
    ∧ decode (.port { Record.ofCode 0x0C with t := t }) = .ok (.collectType t)
    ∧ decode (.port { Record.ofCode 0x0D with n := t }) = .ok (.isAligned t)
    ∧ decode (.port (Record.ofCode 0x0E)) = .ok .bitsLeft
    ∧ decode (.port { Record.ofCode 0x0F with count := n }) = .ok (.atLeast n)
    ∧ decode (.port { Record.ofCode 0x10 with bytes := d }) = .ok (.decode d) :=
  ⟨rfl, rfl, rfl, rfl, rfl, rfl, rfl, rfl, rfl, rfl, rfl, rfl, rfl, rfl⟩

/-- Constructor codes 0x18 to 0x1D in the host's log (R70). -/
theorem test_decode_host (a : Nat) (d : List Byte) (sp : Space) (r : Dense) (c : Composite) :
    decode (.host { Record.ofCode 0x18 with addrA := a }) = .ok (.newDense a)
    ∧ decode (.host { Record.ofCode 0x19 with addrA := a }) = .ok (.newZero a)
    ∧ decode (.host { Record.ofCode 0x1A with addrA := a }) = .ok (.newRom a)
    ∧ decode (.host { Record.ofCode 0x1B with rom := r, addrA := a, bytes := d }) = .ok (.romLoad r a d)
    ∧ decode (.host { Record.ofCode 0x1C with addrA := a }) = .ok (.newSparse a)
    ∧ decode (.host { Record.ofCode 0x1D with parent := c, addrA := a, space := sp })
      = .ok (.sparseAdd c a sp) := ⟨rfl, rfl, rfl, rfl, rfl, rfl⟩

/-- The codes of R71 are no instruction, at the port and in the log. -/
theorem test_decode_reserved :
    ([0x05, 0x06, 0x07, 0x11, 0x12, 0x13, 0x14, 0x15, 0x16, 0x17, 0x1E, 0x1F] : List (BitVec 5)).all
      (fun c => decide ((decode (.port (Record.ofCode c))).toOption = none
        ∧ (decode (.host (Record.ofCode c))).toOption = none)) = true
    ∧ ([0x18, 0x19, 0x1A, 0x1B, 0x1C, 0x1D] : List (BitVec 5)).all
      (fun c => decide ((decode (.port (Record.ofCode c))).toOption = none)) = true := by decide

/-- W3: `000 010 010 001 0001` is 0x0911, Mov R1 with format 010 and `r1` = R2. DC6: 0x6911 has `r2` = 3. -/
theorem test_decode_mov :
    decode (.insn [0x11#8, 0x09#8, 0x34#8, 0x12#8]) = .ok (.mov 1 2 2 0 [0x34#8, 0x12#8])
    ∧ decode (.insn [0x11#8, 0x69#8, 0x34#8, 0x12#8]) = .ok (.mov 1 2 2 3 [0x34#8, 0x12#8]) :=
  ⟨rfl, rfl⟩

/-- The pattern `bbbaaafffdddoooo` with b = 111, a = 101, d = 011, o = 0110 and each format code. -/
theorem test_decode_headers :
    decode (.insn [0b00110110#8, 0b11110100#8]) = .ok (.hdrFmt000 6 3 5 7 [])
    ∧ decode (.insn [0b10110110#8, 0b11110100#8]) = .ok (.hdrFmt001 6 3 5 7 [])
    ∧ decode (.insn [0b00110110#8, 0b11110101#8]) = .ok (.hdrFmt010 6 3 5 7 [])
    ∧ decode (.insn [0b10110110#8, 0b11110101#8]) = .ok (.hdrFmt011 6 3 5 7 [])
    ∧ decode (.insn [0b00110110#8, 0b11110110#8]) = .ok (.hdrFmt100 6 3 5 7 [])
    ∧ decode (.insn [0b10110110#8, 0b11110110#8]) = .ok (.hdrFmt101 6 3 5 7 [])
    ∧ decode (.insn [0b00110110#8, 0b11110111#8]) = .ok (.hdrFmt110 6 3 5 7 [])
    ∧ decode (.insn [0b10110110#8, 0b11110111#8]) = .ok (.hdrFmt111 6 3 5 7 []) :=
  ⟨rfl, rfl, rfl, rfl, rfl, rfl, rfl, rfl⟩

theorem test_decode_short : decode (.insn [0x11#8]) = .error .shortHeader := rfl

/-- W6: the encoding of Mov R3, R4, #0xBEEF. -/
theorem test_encode_mov : encodeInsn 1 3 2 4 0 [0xBEEF] = [0x31#8, 0x11#8, 0xEF#8, 0xBE#8] := by decide

/-! ## Meanings: the vectors of the spec -/

/-- SZ1. -/
theorem test_size (es : Regions) :
    exec .size (st 0x10000 es [] 0) = .next ((st 0x10000 es [] 0).respond (.ok (.total 0x10000))) := rfl

/-- RD1, RD6, RD7, RD4: bytes of the ROM; reversed first; crossing. -/
theorem test_read :
    memRead (.sparse 0x10000 m1) 0 4 = .ok [0xDE#8, 0xAD#8, 0xBE#8, 0xEF#8]
    ∧ memRead (.sparse 0x10000 m1) 0x5000 0x4000 = .err .underflow
    ∧ memRead (.sparse 0x10000 m1) 0x9FFE 0xA002 = .err .invalidAccess := by decide

/-- The nested composite of program P4. -/
def p4 : Space :=
  .sparse 0x10000 (.cons 0x1000 (.sparse 0x100 (.cons 0 (.zero 0x40) (.cons 0x80 (dn 0x80) .nil))) .nil)

/-- RD3, RD8, RD9: the exact end; an empty range; the empty store. P4, step 4: a gap inside a nested
composite. -/
theorem test_read_edges :
    memRead (.sparse 0x10000 m1) 0x9FFE 0xA000 = .ok [0#8, 0#8]
    ∧ memRead (.sparse 0x10000 m1) 0xA000 0xA000 = .ok []
    ∧ memRead (.sparse 0x10000 m1) 0xA400 0xA400 = .err .invalidAccess
    ∧ memRead p4 0x1040 0x1041 = .err .invalidAccess := by decide

/-- WR1, WR4, WR5, WR8: the stored bytes; crossing before ReadOnly; empty data to a ROM; a gap. -/
theorem test_write :
    (memWrite p32 (.sparse 0x10000 m1) 0xA3FE [1#8, 2#8]).bind (fun s => memRead s 0xA3FD 0xA400)
      = .ok [0#8, 1#8, 2#8]
    ∧ memWrite p32 (.sparse 0x10000 m1) 0xFF [0#8, 0#8] = .err .invalidAccess
    ∧ memWrite p32 (.sparse 0x10000 m1) 0 [] = .err .readOnly
    ∧ memWrite p32 (.sparse 0x10000 m1) 0x5000 [1#8] = .err .invalidAccess := by decide

/-- P4, steps 2, 6 and 7: a write through a nested composite, to a Zero inside it, and past its end. WO1 and
WO2 with 2-bit addresses: an end and a length that wrap. -/
theorem test_write_nested :
    memWrite p32 p4 0x1080 [0xAA#8, 0xBB#8]
      = .ok (.sparse 0x10000 (.cons 0x1000 (.sparse 0x100 (.cons 0 (.zero 0x40)
        (.cons 0x80 (.dense ⟨0x80, [(0, 0xAA#8), (1, 0xBB#8)]⟩) .nil))) .nil))
    ∧ memWrite p32 p4 0x1000 [1#8] = .err .readOnly
    ∧ memWrite p32 p4 0x10FF [1#8, 2#8] = .err .invalidAccess
    ∧ memWrite { p8 with addrBits := 2 } (.sparse 3 (.cons 0 (dn 3) .nil)) 2 [7#8, 7#8] = .err .overflow
    ∧ memWrite { p8 with addrBits := 2 } (.sparse 3 (.cons 0 (dn 3) .nil)) 0 [7#8, 7#8, 7#8, 7#8]
      = .err .overflow := by decide

/-- F1, F2, F3. -/
theorem test_find :
    findValue m1 0xA3FF = .hit 2 0xA000 0x400 .dense ∧ findValue m1 0xA400 = .miss
    ∧ findValue m1 0x9F00 = .hit 1 0x9F00 0x100 .zero := by decide

/-- R111 at F1, F2 and F4. -/
theorem test_find_binary :
    findBinary m1 0xA3FF = find m1 0xA3FF ∧ findBinary m1 0xA400 = find m1 0xA400
    ∧ findBinary m1 0 = find m1 0 := by decide

/-- AS2, AS3, AS4, AS9. -/
theorem test_add_space :
    addToRoot p32 0x1000 (dn 0x100) (st 0x10000 (.cons 0x2000 (dn 0x100) .nil) [] 0)
      = .ok (.index 0, st 0x10000 (.cons 0x1000 (dn 0x100) (.cons 0x2000 (dn 0x100) .nil)) [] 0)
    ∧ addToRoot p32 0x1000 (dn 0x10) (st 0x10000 (.cons 0x1000 (dn 0) .nil) [] 0) = .err .overlap
    ∧ addToRoot p32 0x1080 (dn 0) (st 0x10000 (.cons 0x1000 (dn 0x100) .nil) [] 0) = .err .overlap
    ∧ addToRoot p32 0xFF80 (dn 0x100) (st 0x10000 (.cons 0xFF00 (dn 0x100) .nil) [] 0)
      = .err .overflow := by decide

/-- R122: a full table. WO7: the end wraps. -/
theorem test_add_space_full :
    addToRoot { p32 with maxRegions := some 1 } 0x1000 (dn 1) (st 0x10000 (.cons 0 (dn 1) .nil) [] 0)
      = .refused .tableFull
    ∧ addToRoot p8 0xF0 (dn 0x10) (st 0xFF (.cons 0 (dn 0x80) .nil) [] 0) = .err .overflow := by decide

/-- S23, and R72 for a finite `MAX_WINDOW_BYTES`. -/
theorem test_scan_load :
    loadWindow p32 [1#8] (acac 9) = .ok (.unit, st 0 .nil [1#8] 0)
    ∧ loadWindow { p32 with maxWindow := some 6 } (List.replicate 7 0#8) (acac 9)
      = .refused .windowTooLong := by decide

/-- S3. -/
theorem test_peek_bit : exec .peekBit (acac 2) = .next ((acac 2).respond (.ok (.bit true))) := rfl

/-- S2 on two bytes: at the end. -/
theorem test_peek_bit_end : exec .peekBit (acac 16) = .next ((acac 16).respond (.err .exhausted)) := rfl

/-- S1, its third bit. -/
theorem test_next_bit : exec .nextBit (acac 2) = .next ((acac 3).respond (.ok (.bit true))) := rfl

/-- S2. -/
theorem test_next_bit_end : exec .nextBit (acac 16) = .next ((acac 16).respond (.err .exhausted)) := rfl

/-- W1, step 3. -/
theorem test_collect : exec (.collect 4 0) (acac 4) = .next ((acac 8).respond (.ok (.field 0xA))) := rfl

/-- S12 and S16: 64 bits over 9 bytes; the width check comes first. -/
theorem test_collect_edges :
    collect ⟨[0x01#8, 0x23#8, 0x45#8, 0x67#8, 0x89#8, 0xAB#8, 0xCD#8, 0xEF#8, 0xFF#8], 3⟩ 64 64
      = .ok (0xFDF9B5712CE8A460,
        ⟨[0x01#8, 0x23#8, 0x45#8, 0x67#8, 0x89#8, 0xAB#8, 0xCD#8, 0xEF#8, 0xFF#8], 67⟩)
    ∧ collect ⟨[0xFF#8], 0⟩ 9 8 = .refused .widthExceedsTarget := by decide

/-- S14. -/
theorem test_collect_type :
    exec (.collectType 1) (st 0 .nil [0x34#8, 0x12#8] 0)
      = .next ((st 0 .nil [0x34#8, 0x12#8] 16).respond (.ok (.field 0x1234))) := rfl

/-- S15. -/
theorem test_collect_type_short :
    exec (.collectType 2) (acac 0) = .next ((acac 0).respond (.err .exhausted)) := rfl

/-- S18. -/
theorem test_is_aligned :
    exec (.isAligned 0) (acac 8) = .next ((acac 8).respond (.ok (.aligned true)))
    ∧ exec (.isAligned 1) (acac 8) = .next ((acac 8).respond (.ok (.aligned false))) := ⟨rfl, rfl⟩

/-- S22. -/
theorem test_bits_left : exec .bitsLeft (acac 4) = .next ((acac 4).respond (.ok (.count 12))) := rfl

/-- S22. -/
theorem test_at_least :
    exec (.atLeast 12) (acac 4) = .next ((acac 4).respond (.ok (.enough true)))
    ∧ exec (.atLeast 13) (acac 4) = .next ((acac 4).respond (.ok (.enough false))) := ⟨rfl, rfl⟩

/-- DC1, DC3, DC5. -/
theorem test_decode_command :
    decodeWindow p32 [0x11#8, 0x09#8, 0x34#8, 0x12#8]
      = .ok { opcode := .mov, out := .r1, fmt := 2, op1 := .raw .r2, op2 := .const 0x1234, length := 4 }
    ∧ decodeWindow p32 [0x11#8, 0x09#8] = .err .exhausted
    ∧ decodeWindow p32 [0x11#8] = .err .exhausted := by decide

/-- DC9 with `f_TC` = 1, DC12 with `f_CR` = 3, DC8 with the invalid opcode 2. -/
theorem test_decode_command_formats :
    decodeWindow p32 [0x91#8, 0x68#8, 0x34#8, 0x12#8, 0x78#8, 0x56#8]
      = .ok { opcode := .mov, out := .r1, fmt := 1, op1 := .const 0x1234, op2 := .const 0x5678, length := 6 }
    ∧ decodeWindow p32 [0x91#8, 0x69#8, 0xCD#8, 0xAB#8]
      = .ok { opcode := .mov, out := .r1, fmt := 3, op1 := .const 0xABCD, op2 := .raw .r3, length := 4 }
    ∧ decodeWindow p32 [0x12#8, 0x09#8] = .err .invalidOpcode := by decide

/-- K1, K2, and a new ROM and a new composite. -/
theorem test_new_stores (s : State) :
    exec (.newDense 4) s = .next (s.respond (.ok (.space (.dense ⟨4, []⟩))))
    ∧ exec (.newZero 0x100) s = .next (s.respond (.ok (.space (.zero 0x100))))
    ∧ exec (.newRom 4) s = .next (s.respond (.ok (.space (.rom ⟨4, []⟩))))
    ∧ exec (.newSparse 0x100) s = .next (s.respond (.ok (.space (.sparse 0x100 .nil)))) :=
  ⟨hostRun_ok s _, hostRun_ok s _, hostRun_ok s _, hostRun_ok s _⟩

/-- K3, K4, K5. -/
theorem test_rom_load :
    romLoad p32 ⟨4, []⟩ 1 [0xAA#8, 0xBB#8] = .ok (.space (.rom ⟨4, [(1, 0xAA#8), (2, 0xBB#8)]⟩))
    ∧ romLoad p32 ⟨4, []⟩ 2 [1#8, 2#8, 3#8] = .err .outOfBounds
    ∧ romLoad p32 ⟨0x100, []⟩ 0xFFFFFFFF [1#8] = .err .overflow := by decide

/-- K7, K8. -/
theorem test_sparse_add :
    sparseAdd p32 ⟨0x100, .cons 0x80 (dn 0x80) .nil⟩ 0 (.zero 0x40)
      = .ok (.spaceAt (.sparse 0x100 (.cons 0 (.zero 0x40) (.cons 0x80 (dn 0x80) .nil))) 0)
    ∧ sparseAdd p32 ⟨0x100, .cons 0x80 (dn 0x80) .nil⟩ 0xC0 (dn 0x80) = .err .overflow := by decide

/-- R129 and R173: SPARSE_ADD on a full table is refused, and the mark is set, but of a stopped block (R40). -/
theorem test_sparse_add_full (s : State) (d : Defect) :
    (s.stopped = none →
      hostRun s (sparseAdd { p32 with maxRegions := some 0 } ⟨0x100, .nil⟩ 0 (dn 1))
        = .next (s.markRefused.respond (.refused .tableFull)))
    ∧ (s.stopped = some d →
      hostRun s (sparseAdd { p32 with maxRegions := some 0 } ⟨0x100, .nil⟩ 0 (dn 1))
        = .next (s.respond (.refused .tableFull))) :=
  ⟨fun h => hostRun_running h, fun h => hostRun_stopped h⟩

/-- R88: each toy row is a DECODE of its bytes. -/
theorem test_toy_rows (s : State) :
    exec (.hdrFmt000 6 3 5 7 []) s = exec (.decode [0b00110110#8, 0b11110100#8]) s
    ∧ exec (.hdrFmt001 6 3 5 7 []) s = exec (.decode [0b10110110#8, 0b11110100#8]) s
    ∧ exec (.hdrFmt010 6 3 5 7 []) s = exec (.decode [0b00110110#8, 0b11110101#8]) s
    ∧ exec (.hdrFmt011 6 3 5 7 []) s = exec (.decode [0b10110110#8, 0b11110101#8]) s
    ∧ exec (.hdrFmt100 6 3 5 7 []) s = exec (.decode [0b00110110#8, 0b11110110#8]) s
    ∧ exec (.hdrFmt101 6 3 5 7 []) s = exec (.decode [0b10110110#8, 0b11110110#8]) s
    ∧ exec (.hdrFmt110 6 3 5 7 []) s = exec (.decode [0b00110110#8, 0b11110111#8]) s
    ∧ exec (.hdrFmt111 6 3 5 7 []) s = exec (.decode [0b10110110#8, 0b11110111#8]) s
    ∧ exec (.mov 1 2 2 0 [0x34#8, 0x12#8]) s = exec (.decode [0x11#8, 0x09#8, 0x34#8, 0x12#8]) s :=
  ⟨rfl, rfl, rfl, rfl, rfl, rfl, rfl, rfl, rfl⟩

/-- P6, step 1: a reserved code, and K9: a constructor's code at the port. -/
theorem test_refused_codes (s : State) (h : s.stopped = none) :
    step (s.setInbox [.request (.port (Record.ofCode 0x05))])
      = .next ((s.setInbox []).markRefused.respond (.refused .unknownCommand))
    ∧ step (s.setInbox [.request (.port (Record.ofCode 0x18))])
      = .next ((s.setInbox []).markRefused.respond (.refused .unknownCommand)) := by
  constructor <;> exact portCommand_running (s := s.setInbox []) h

/-- A word placed right after reset is the next instruction that runs. -/
theorem test_fetch_word :
    step (State.reset.withFetchWord 8 0x0E) = exec .bitsLeft State.reset
    ∧ step (State.reset.withFetchWord 16 0x0911) = exec (.mov 1 2 2 0 [0, 0, 0, 0]) State.reset :=
  ⟨rfl, rfl⟩

/-! ## Witnesses: for each statement with hypotheses, a state and operands that meet them -/

/-- A composite of one address, holding one store of one byte. -/
def one (sp : Space) : Composite := ⟨1, .cons 0 sp .nil⟩

/-- A state whose root holds one store of one byte. -/
def rooted (sp : Space) : State := st 1 (.cons 0 sp .nil) [] 0

/-- Well formed at the machine's address width, whatever the capacity of its tables. -/
theorem one_wf {sp : Space} (h : sp.wf Config.params.uncapped = true) (hs : sp.size ≤ 1) :
    (one sp).wf Config.params.uncapped = true := by
  have h1 := one_le_maxAddr
  simp [one, Composite.wf, Composite.toSpace, Space.wf, Regions.wf, Regions.all, h, hs, h1]

theorem dense_wf (p : Params) (h1 : 1 ≤ p.maxAddr) : (dn 1).wf p = true := by
  simp [dn, Space.wf, Dense.wf, Memory.wf, h1]

theorem one_dense_wf : (one (dn 1)).wf Config.params.uncapped = true :=
  one_wf (dense_wf _ one_le_maxAddr) (Nat.le_refl 1)

theorem one_rom_wf : (one (.rom ⟨1, []⟩)).wf Config.params.uncapped = true :=
  one_wf (sp := .rom ⟨1, []⟩) (dense_wf _ one_le_maxAddr) (Nat.le_refl 1)

/-- A stopped and refused block with one constructor run to come. -/
def halted : State :=
  { acac 0 with
    stopped := some .headerMisaligned, refused := true
    inbox := [.request (.host (Record.ofCode 0x19))] }

/-- The first write of the witnesses: one byte into the store of one byte. -/
theorem one_write :
    memWrite Config.params (one (dn 1)).toSpace 0 [7#8] = .ok (one (.dense ⟨1, [(0, 7#8)]⟩)).toSpace := by
  have h1 := one_le_maxAddr
  have h0 : 0 < Config.params.maxAddr := h1
  simp [one, Composite.toSpace, memWrite, writeEntries, covers, dn, Space.size, Machine.translate, checkedSub, toAddr,
    checkedAdd, denseWrite, writeBytes, writeByte, h1, h0]

theorem one_add {sp : Space} (h : sp.size = 1) :
    registerSpace p32 ⟨1, .nil⟩ 0 sp = .ok (one sp, 0) :=
  registerSpace_ok.mpr ⟨by rw [h]; decide, by simp [h], by simp [overlapsAny, Regions.all], rfl, rfl, rfl⟩

theorem witness_ResetAloneClearsTheMarks :
    ((acac 3).setInbox [.reset]).inbox = .reset :: []
    ∧ step halted = .next ((halted.setInbox []).respond (.ok (.space (.zero 0))))
    ∧ halted.inbox.head? ≠ some .reset ∧ halted.stopped = some .headerMisaligned
    ∧ halted.refused = true := ⟨rfl, rfl, by simp [halted], rfl, rfl⟩

theorem witness_StepTakesOneInput :
    step halted = .next ((halted.setInbox []).respond (.ok (.space (.zero 0))))
    ∧ (acac 3).inbox = [] ∧ (acac 3).stopped = none := ⟨rfl, rfl, rfl⟩

theorem witness_StepRunsDecodedRequest :
    halted.inbox = .request (.host (Record.ofCode 0x19)) :: []
    ∧ decode (.host (Record.ofCode 0x19)) = .ok (.newZero 0) := ⟨rfl, rfl⟩

/-- The least and the greatest reserved code and constructor code. -/
theorem witness_MeaninglessCodesAreRefused :
    ([0x05, 0x1F, 0x18, 0x1D] : List (BitVec 5)).all (fun c =>
      decide (((acac 0).setInbox [.request (.port (Record.ofCode c))]).stopped = none
        ∧ ((acac 0).setInbox [.request (.port (Record.ofCode c))]).inbox
          = .request (.port (Record.ofCode c)) :: []
        ∧ (Record.ofCode c).cmd.toNat ∈ [0x05, 0x06, 0x07, 0x11, 0x12, 0x13, 0x14, 0x15, 0x16, 0x17, 0x1E,
          0x1F, 0x18, 0x19, 0x1A, 0x1B, 0x1C, 0x1D])) = true := by decide

theorem witness_StoppedBlockHasNoStep :
    halted.stopped = some .headerMisaligned ∧ writes .size ≠ .host
    ∧ (halted.setInbox [.request (.port (Record.ofCode 0x05))]).stopped = some .headerMisaligned
    ∧ (halted.setInbox [.request (.port (Record.ofCode 0x05))]).inbox
      = .request (.port (Record.ofCode 0x05)) :: []
    ∧ writes (.newZero 0) = .host := ⟨rfl, by decide, rfl, rfl, rfl⟩

theorem witness_ToyInstructionStepsAsDecode :
    ((acac 0).setInbox [.request (.insn [0x11#8])]).inbox = .request (.insn [0x11#8]) :: [] := rfl

theorem witness_NoInputReachesADefect :
    (acac 0).stopped = none ∧ step (acac 0) = .next (acac 0) := ⟨rfl, rfl⟩

theorem witness_ErrorsAndQueriesChangeNothing :
    exec .peekBit (acac 16) = .next ((acac 16).respond (.err .exhausted))
    ∧ ((acac 16).respond (.err .exhausted)).response = some (.err .exhausted)
    ∧ writes .peekBit = .nothing ∧ exec .peekBit (acac 2) = .next ((acac 2).respond (.ok (.bit true)))
    ∧ ((acac 2).respond (.ok (.bit true))).response = some (.ok (.bit true)) := ⟨rfl, rfl, rfl, rfl, rfl⟩

theorem witness_RefusalOnlySetsTheMark :
    (acac 0).stopped = none
    ∧ exec (.collect 9 0) (acac 0)
      = .next ((acac 0).markRefused.respond (.refused .widthExceedsTarget))
    ∧ ((acac 0).markRefused.respond (.refused .widthExceedsTarget)).response
      = some (.refused .widthExceedsTarget)
    ∧ halted.stopped = some .headerMisaligned
    ∧ exec (.newZero 0) halted = .next (halted.respond (.ok (.space (.zero 0))))
    ∧ step halted = .next ((halted.setInbox []).respond (.ok (.space (.zero 0))))
    ∧ halted.inbox.head? ≠ some .reset ∧ halted.refused = true :=
  ⟨rfl, rfl, rfl, rfl, rfl, rfl, by simp [halted], rfl⟩

theorem witness_ConstructorsTouchNoBlockState :
    writes (.newZero 0) = .host ∧ (acac 0).stopped = none ∧ halted.stopped = some .headerMisaligned :=
  ⟨rfl, rfl, rfl⟩

theorem witness_ScannerWrites :
    exec .size (acac 2) = .next ((acac 2).respond (.ok (.total 0))) ∧ writes .size ≠ .scan
    ∧ exec .nextBit (acac 2) = .next ((acac 3).respond (.ok (.bit true)))
    ∧ (∀ w, Instr.nextBit ≠ .scanLoad w)
    ∧ exec .nextBit (acac 16) = .next ((acac 16).respond (.err .exhausted))
    ∧ ∀ v, ((acac 16).respond (.err .exhausted)).response ≠ some (.ok v) :=
  ⟨rfl, by decide, rfl, by simp, rfl, by simp⟩

theorem witness_StepKeepsTheInvariant :
    (State.reset.withFetchWord 8 0x0E).Inv
    ∧ step (State.reset.withFetchWord 8 0x0E) = .next (State.reset.respond (.ok (.count 0))) := by
  refine ⟨⟨reset_root_wf, Nat.le_refl _, ?_⟩, rfl⟩
  simp [State.withFetchWord, tableRequest, State.reset, Input.wf, Record.wf, Record.ofCode, Params.isAddr,
    Space.built, Space.unwritten, Regions.unwritten, Space.wf, Dense.wf, Memory.wf, Composite.toSpace,
    Regions.wf, Regions.count]

theorem witness_ConstructorsBuildWellFormedSpaces :
    writes (.newZero 1) = .host ∧ (Instr.newZero 1).wf Config.params = true
    ∧ exec (.newZero 1) (acac 0) = .next ((acac 0).respond (.ok (.space (.zero 1))))
    ∧ Composite.wf p32 ⟨1, .nil⟩ = true ∧ (Space.zero 1).wf p32 = true
    ∧ (Composite.toSpace ⟨1, .nil⟩).unwritten = true ∧ (Space.zero 1).unwritten = true
    ∧ sparseAdd p32 ⟨1, .nil⟩ 0 (.zero 1) = .ok (.spaceAt (one (.zero 1)).toSpace 0) := by
  have h1 := one_le_maxAddr
  refine ⟨rfl, ?_, rfl, by decide, by decide, rfl, rfl, by decide⟩
  simp [Instr.wf, Params.isAddr, h1]

theorem witness_SuppliedRequestsAreWellFormed :
    Input.wf Config.params (.request (.port (Record.ofCode 0x01))) = true
    ∧ decode (.port (Record.ofCode 0x01)) = .ok (.read 0 0) := by
  refine ⟨?_, rfl⟩
  simp [Input.wf, Record.wf, Record.ofCode, Params.isAddr, Space.built, Space.unwritten, Regions.unwritten,
    Space.wf, Dense.wf, Memory.wf, Composite.toSpace, Regions.wf, Regions.count]

theorem witness_OverlapPredicate :
    ((0 : Nat) < 2 ∧ 1 < 3) ∧ ((0 : Nat) < 2 ∧ 2 = 2 ∧ 2 ≤ 2) ∧ ((2 : Nat) ≤ 2 ∧ 2 < 3) := by decide

theorem witness_SizeAnswersTheDeclaredTotal :
    (rooted (dn 1)).stopped = none
    ∧ exec .size (rooted (dn 1)) = .next ((rooted (dn 1)).respond (.ok (.total 1))) := ⟨rfl, rfl⟩

/-- The whole store, and the empty span at its first byte, for each kind of leaf. -/
theorem witness_ReadAnswersTheLeafBytes :
    ([dn 1, .zero 1, .rom ⟨1, []⟩] : List Space).all (fun sp =>
      decide ((rooted sp).stopped = none ∧ find (rooted sp).root.entries 0 = some ⟨0, 0, sp⟩
        ∧ sp.kind ≠ .sparse ∧ 0 ≤ 1 ∧ 1 ≤ 0 + sp.size ∧ 0 ≤ 0 + sp.size)) = true := by decide

/-- Each case of the check order: reversed; past a leaf; the whole leaf; unmapped, crossing and inside in a
composite, whose sub-space is a leaf or again a composite; the command. -/
theorem witness_ReadChecksInOrder :
    1 > 0 ∧ (dn 1).kind ≠ .sparse ∧ 2 > (dn 1).size ∧ ¬ 1 > (dn 1).size
    ∧ find (one (dn 1)).entries 1 = none
    ∧ find (one (dn 1)).entries 0 = some ⟨0, 0, dn 1⟩ ∧ 2 > 0 + (dn 1).size ∧ ¬ 1 > 0 + (dn 1).size
    ∧ find (one (one (dn 1)).toSpace).entries 0 = some ⟨0, 0, (one (dn 1)).toSpace⟩
    ∧ ¬ 1 > 0 + (one (dn 1)).toSpace.size
    ∧ (rooted (dn 1)).stopped = none ∧ memRead (rooted (dn 1)).root.toSpace 0 1 = .ok [0#8]
    ∧ memRead (rooted (dn 1)).root.toSpace 1 1 = .err .invalidAccess := by decide

theorem witness_ReadIsBytewise :
    (one (dn 1)).toSpace.wf p32 = true ∧ memRead (one (dn 1)).toSpace 0 1 = .ok [0#8] := by decide

theorem witness_WriteToADenseStoreCompletes :
    (rooted (dn 1)).root.wf Config.params.uncapped = true ∧ (rooted (dn 1)).stopped = none
    ∧ find (rooted (dn 1)).root.entries 0 = some ⟨0, 0, dn 1⟩
    ∧ 0 + ([7#8] : List Byte).length ≤ 0 + 1 :=
  ⟨one_dense_wf, rfl, by decide, by decide⟩

/-- A write into a Dense store inside a nested composite. -/
theorem witness_ReadAfterWriteThroughNesting :
    (one (one (dn 1)).toSpace).toSpace.wf Config.params.uncapped = true
    ∧ memWrite Config.params (one (one (dn 1)).toSpace).toSpace 0 [7#8]
      = .ok (one (one (.dense ⟨1, [(0, 7#8)]⟩)).toSpace).toSpace := by
  refine ⟨one_wf one_dense_wf (Nat.le_refl 1), ?_⟩
  have h1 := one_le_maxAddr
  have h0 : 0 < Config.params.maxAddr := h1
  simp only [one, Composite.toSpace]
  simp [memWrite, writeEntries, covers, dn, Space.size, Machine.translate, checkedSub, toAddr, checkedAdd,
    denseWrite, writeBytes, writeByte, h1, h0]

theorem witness_RepeatedWriteIsIdempotent :
    (rooted (dn 1)).root.wf Config.params.uncapped = true
    ∧ exec (.write 0 [7#8]) (rooted (dn 1))
      = .next ((rooted (.dense ⟨1, [(0, 7#8)]⟩)).respond (.ok .unit)) := by
  refine ⟨one_dense_wf, ?_⟩
  have h1 := one_le_maxAddr
  have h0 : 0 < Config.params.maxAddr := h1
  show portCommand (rooted (dn 1)) (writeRoot Config.params 0 [7#8] (rooted (dn 1))) = _
  rw [portCommand_running rfl]
  simp [writeRoot, rooted, st, writeEntries, memWrite, covers, dn, Space.size, Machine.translate, checkedSub, toAddr,
    checkedAdd, denseWrite, writeBytes, writeByte, h1, h0, State.setRoot]

/-- Each case of the check order. In a Dense store: an end that wraps, an end past the size, a write that
fits. In a composite: unmapped; a length that is no Address; an end that wraps; crossing; a sub-space whose
write fails (a Zero, a ROM) and one whose write answers OK, a leaf or again a composite. The command, with
each outcome. -/
theorem witness_WriteChecksInOrder :
    (0xFF + ([7#8] : List Byte).length > p8.maxAddr
    ∧ ¬(1 + ([7#8] : List Byte).length > p8.maxAddr) ∧ 1 + ([7#8] : List Byte).length > (dn 1).size
    ∧ ¬ 0 + ([7#8] : List Byte).length > (dn 1).size ∧ Memory.wf [] = true
    ∧ find (one (dn 1)).entries 1 = none
    ∧ find (one (dn 1)).entries 0 = some ⟨0, 0, dn 1⟩
    ∧ ([7#8, 7#8, 7#8, 7#8] : List Byte).length > { p8 with addrBits := 1 }.maxAddr
    ∧ find (one (dn 2)).entries 1 = some ⟨0, 0, dn 2⟩
    ∧ ¬ ([7#8] : List Byte).length > { p8 with addrBits := 1 }.maxAddr
    ∧ 1 - 0 + ([7#8] : List Byte).length > { p8 with addrBits := 1 }.maxAddr
    ∧ 0 - 0 + ([7#8, 7#8] : List Byte).length > (dn 1).size
    ∧ find (one (.zero 1)).entries 0 = some ⟨0, 0, .zero 1⟩
    ∧ memWrite p8 (.zero 1) (0 - 0) [7#8] = .err .readOnly
    ∧ find (one (.rom ⟨1, []⟩)).entries 0 = some ⟨0, 0, .rom ⟨1, []⟩⟩
    ∧ memWrite p8 (.rom ⟨1, []⟩) (0 - 0) [7#8] = .err .readOnly
    ∧ memWrite p8 (dn 1) (0 - 0) [7#8] = .ok (.dense ⟨1, [(0, 7#8)]⟩)
    ∧ find (one (one (dn 1)).toSpace).entries 0 = some ⟨0, 0, (one (dn 1)).toSpace⟩
    ∧ memWrite p8 (one (dn 1)).toSpace (0 - 0) [7#8] = .ok (one (.dense ⟨1, [(0, 7#8)]⟩)).toSpace)
    ∧ (rooted (dn 1)).stopped = none
    ∧ memWrite Config.params (rooted (dn 1)).root.toSpace 0 [7#8]
      = .ok (one (.dense ⟨1, [(0, 7#8)]⟩)).toSpace
    ∧ memWrite Config.params (rooted (dn 1)).root.toSpace 1 [7#8] = .err .invalidAccess :=
  ⟨by decide, rfl, one_write, rfl⟩

/-- A WRITE that the ROM rejects; and ADD_SPACE of a Dense store of one byte into an empty root. -/
theorem witness_MappedStaysMappedAndRomNeverChanges :
    (rooted (.rom ⟨1, []⟩)).root.wf Config.params.uncapped = true
    ∧ exec (.write 0 [7#8]) (rooted (.rom ⟨1, []⟩))
      = .next ((rooted (.rom ⟨1, []⟩)).respond (.err .readOnly))
    ∧ leafKindAt (rooted (.rom ⟨1, []⟩)).root.toSpace 0 = some .rom
    ∧ portCommand (st 1 .nil [] 0) (addToRoot p32 0 (dn 1) (st 1 .nil [] 0))
      = .next ((rooted (dn 1)).respond (.ok (.index 0)))
    ∧ leafKindAt (st 1 .nil [] 0).root.toSpace 0 = none
    ∧ leafKindAt ((rooted (dn 1)).respond (.ok (.index 0))).root.toSpace 0 = some .dense
    ∧ (dn 1).unwritten = true := by
  have h1 := one_le_maxAddr
  have h0 : 0 < Config.params.maxAddr := h1
  refine ⟨one_rom_wf, ?_, by decide, ?_, rfl, by decide, rfl⟩
  case refine_2 =>
    rw [portCommand_running rfl]
    simp [addToRoot, st, one_add (show (dn 1).size = 1 from rfl), rooted, one, State.setRoot]
  show portCommand (rooted (.rom ⟨1, []⟩)) (writeRoot Config.params 0 [7#8] (rooted (.rom ⟨1, []⟩))) = _
  rw [portCommand_running rfl]
  simp [writeRoot, rooted, st, writeEntries, memWrite, covers, Space.size, Machine.translate, checkedSub, toAddr,
    checkedAdd, h1, h0]

theorem witness_OutOfBoundsOnlyFromRomLoad :
    exec (.romLoad ⟨0, []⟩ 0 [7#8]) (acac 0) = .next ((acac 0).respond (.err .outOfBounds)) := by
  have h1 := one_le_maxAddr
  show hostRun (acac 0) (romLoad Config.params ⟨0, []⟩ 0 [7#8]) = _
  simp [romLoad, denseWrite, toAddr, checkedAdd, h1]

/-- A hit at the only address of the store, and a miss right past it. -/
theorem witness_FindReportsTheEntry :
    (rooted (dn 1)).root.wf Config.params.uncapped = true ∧ (rooted (dn 1)).stopped = none
    ∧ (rooted (dn 1)).root.entries.get? 0 = some (0, dn 1) ∧ 0 ≤ 0 ∧ 0 < 0 + (dn 1).size
    ∧ ∀ k off sub, (rooted (dn 1)).root.entries.get? k = some (off, sub) →
      ¬(off ≤ 1 ∧ 1 < off + sub.size) := by
  refine ⟨one_dense_wf, rfl, rfl, by decide, by decide, ?_⟩
  intro k off sub h
  cases k with
  | zero =>
    cases h
    decide
  | succ k => cases h

theorem witness_BinarySearchAgreesWithFind : (one (dn 1)).wf p32 = true := by decide

/-- An empty table, and one that holds an entry, into which an empty store goes right behind it. -/
theorem addable (p : Params) (h1 : 1 ≤ p.maxAddr) :
    Addable p ⟨1, .nil⟩ 0 (dn 1) ∧ Addable p (one (dn 1)) 1 (dn 0) := by
  refine ⟨⟨?_, Nat.le_refl 1, fun k o e h => by cases h⟩, ⟨?_, Nat.le_refl 1, ?_⟩⟩
  · simp [Composite.wf, Composite.toSpace, Space.wf, Regions.wf, h1]
  · simp [one, dn, Composite.wf, Composite.toSpace, Space.wf, Regions.wf, Regions.all, Dense.wf, Memory.wf,
      Space.size, h1]
  · intro k o e h
    cases k with
    | zero =>
      cases h
      decide
    | succ k => cases h

/-- The table of an unbounded instance has room, that of an instance of no entries is full. -/
theorem witness_AddSpaceInsertsAtTheSortedSlot :
    (rooted (dn 1)).stopped = none ∧ Addable Config.params (rooted (dn 1)).root 1 (dn 0)
    ∧ Addable Config.params (st 1 .nil [] 0).root 0 (dn 1)
    ∧ Addable p32 (rooted (dn 1)).root 1 (dn 0) ∧ tableFull p32 (rooted (dn 1)).root.entries = false
    ∧ tableFull { p32 with maxRegions := some 0 } .nil = true :=
  ⟨rfl, (addable _ one_le_maxAddr).2, (addable _ one_le_maxAddr).1, (addable p32 (by decide)).2, rfl, rfl⟩

/-- Each case of the check order: past the bound; overlapping an entry; full. -/
theorem witness_AddSpaceChecksInOrder :
    (rooted (dn 1)).stopped = none ∧ 0 + (dn 2).size > (rooted (dn 1)).root.total
    ∧ 0 + (dn 1).size ≤ p32.maxAddr ∧ 0 + (dn 1).size ≤ (rooted (dn 1)).root.total
    ∧ (rooted (dn 1)).root.entries.get? 0 = some (0, dn 1)
    ∧ overlaps 0 (0 + (dn 1).size) 0 (0 + (dn 1).size) = true
    ∧ 1 + (dn 0).size ≤ p32.maxAddr ∧ 1 + (dn 0).size ≤ (rooted (dn 1)).root.total
    ∧ (∀ k o e, (rooted (dn 1)).root.entries.get? k = some (o, e) →
      overlaps 1 (1 + (dn 0).size) o (o + e.size) = false)
    ∧ { p32 with maxRegions := some 1 }.maxRegions = some (rooted (dn 1)).root.entries.count := by
  refine ⟨rfl, by decide, by decide, by decide, rfl, by decide, by decide, by decide, ?_, rfl⟩
  exact (addable p32 (by decide)).2.2.2

theorem witness_OverlapIsRejectedInEitherOrder :
    overlaps 0 (0 + (dn 1).size) 0 (0 + (Space.zero 1).size) = true
    ∧ registerSpace p32 ⟨1, .nil⟩ 0 (dn 1) = .ok (one (dn 1), 0)
    ∧ registerSpace p32 ⟨1, .nil⟩ 0 (.zero 1) = .ok (one (.zero 1), 0) :=
  ⟨by decide, one_add rfl, one_add rfl⟩

theorem witness_NewStoresAreEmpty : (0 : Nat) < 1 := by decide

/-- Each case: an end that wraps, an end past the ROM, an image that fills it. -/
theorem witness_RomLoadWritesTheImage :
    Dense.wf Config.params ⟨1, []⟩ = true
    ∧ 1 + (List.replicate Config.params.maxAddr 0#8).length > Config.params.maxAddr
    ∧ ¬ 1 + ([] : List Byte).length > Config.params.maxAddr
    ∧ ¬ 0 + ([7#8] : List Byte).length > Config.params.maxAddr ∧ ¬ 0 + ([7#8] : List Byte).length > 1
    ∧ Dense.wf Config.params ⟨0, []⟩ = true ∧ 0 + ([7#8] : List Byte).length > 0 := by
  have h1 := one_le_maxAddr
  refine ⟨dense_wf _ one_le_maxAddr, by simp, Nat.not_lt.mpr h1, Nat.not_lt.mpr h1, by decide, ?_, by decide⟩
  simp [Dense.wf, Memory.wf]

theorem witness_SparseAddInsertsAtTheSortedSlot :
    Addable Config.params (one (dn 1)) 1 (dn 0) ∧ Addable p32 (one (dn 1)) 1 (dn 0)
    ∧ tableFull p32 (one (dn 1)).entries = false :=
  ⟨(addable _ one_le_maxAddr).2, (addable p32 (by decide)).2, rfl⟩

/-- The first and the last bit of a window. -/
theorem witness_WindowBitOrder :
    0 / 8 < ([0xAC#8] : List Byte).length ∧ 7 / 8 < ([0xAC#8] : List Byte).length := by decide

/-- A window at the limit, and one past it. -/
theorem witness_ScanLoadTakesTheWindow :
    (acac 0).stopped = none ∧ windowTooLong { p32 with maxWindow := some 1 } [0xAC#8] = false
    ∧ windowTooLong { p32 with maxWindow := some 1 } [0xAC#8, 0xAC#8] = true := by decide

/-- A limit of 6 bytes, and one that accepts the empty window only. -/
theorem witness_LongWindowsAreRefused :
    (acac 0).stopped = none ∧ { p32 with maxWindow := some 6 }.maxWindow = some 6
    ∧ (List.replicate 7 0#8).length > 6 ∧ { p32 with maxWindow := some 0 }.maxWindow = some 0
    ∧ ([0#8] : List Byte).length > 0 := by decide

/-- The last bit of the window, and the end. -/
theorem witness_PeekBitAnswersTheBit :
    (acac 15).stopped = none ∧ ¬ (acac 15).scan.pos ≥ 8 * (acac 15).scan.window.length
    ∧ (acac 16).stopped = none ∧ (acac 16).scan.pos ≥ 8 * (acac 16).scan.window.length := by decide

theorem witness_NextBitAdvances :
    (acac 15).stopped = none ∧ ¬ (acac 15).scan.pos ≥ 8 * (acac 15).scan.window.length
    ∧ (acac 16).stopped = none ∧ (acac 16).scan.pos ≥ 8 * (acac 16).scan.window.length := by decide

/-- One bit above the target; one bit above what is left; exactly what is left. -/
theorem witness_CollectTakesTheField :
    (acac 8).stopped = none ∧ (9#7).toNat > 8 <<< (0#2).toNat
    ∧ ¬ (9#7).toNat > 8 <<< (1#2).toNat
    ∧ (9#7).toNat > 8 * (acac 8).scan.window.length - (acac 8).scan.pos
    ∧ ¬ (8#7).toNat > 8 <<< (0#2).toNat
    ∧ ¬ (8#7).toNat > 8 * (acac 8).scan.window.length - (acac 8).scan.pos := by decide

theorem witness_CollectTypeIsCollectOfTheWidth :
    (acac 0).stopped = none
    ∧ 8 <<< (1#2).toNat ≤ 8 * (acac 0).scan.window.length - (acac 0).scan.pos := by decide

theorem witness_BytewiseAssemblyEqualsTheField : 3 + 13 ≤ 8 * ([0xAC#8, 0xAC#8] : List Byte).length := by
  decide

theorem witness_CollectEqualsRepeatedNextBit :
    (acac 8).stopped = none ∧ (8#7).toNat ≤ 8 <<< (0#2).toNat
    ∧ (8#7).toNat ≤ 8 * (acac 8).scan.window.length - (acac 8).scan.pos := by decide

theorem witness_AlignedFieldIsLittleEndian : 1 + 1 ≤ ([0xAC#8, 0xAC#8] : List Byte).length := by decide

theorem witness_ExhaustedStateIsTerminal :
    (acac 16).stopped = none ∧ (acac 16).scan.pos = 8 * (acac 16).scan.window.length
    ∧ 0 < (8#7).toNat ∧ (8#7).toNat ≤ 8 <<< (0#2).toNat
    ∧ (∀ w, Instr.nextBit ≠ .scanLoad w)
    ∧ exec .nextBit (acac 16) = .next ((acac 16).respond (.err .exhausted)) :=
  ⟨rfl, rfl, by decide, by decide, by simp, rfl⟩

theorem witness_CursorQueries :
    (acac 9).stopped = none ∧ 0 < (8#7).toNat ∧ (8#7).toNat ≤ 8 <<< (0#2).toNat := by decide

/-- At the machine's parameters, and at others with no, one and two immediate words. -/
theorem witness_DecodeOfEncodeRoundTrips :
    (acac 0).stopped = none ∧ Config.params.opcodeMap 1#4 = some .mov
    ∧ ([0x1234#16] : List Imm).length = nimm Config.params 2#3
    ∧ p32.opcodeMap 1#4 = some .mov ∧ ([] : List Imm).length = nimm p32 0#3
    ∧ ([0x1234#16] : List Imm).length = nimm p32 2#3
    ∧ ([0x1234#16, 0x5678#16] : List Imm).length = nimm p32 1#3
    ∧ windowTooLong p32 (encodeInsn 1 1 1 2 3 [0x1234#16, 0x5678#16]) = false :=
  ⟨rfl, rfl, rfl, rfl, rfl, rfl, rfl, rfl⟩

/-- Each case: an invalid opcode, an immediate missing, a whole instruction, a window of one byte. -/
theorem witness_DecodeErrorsInOrder :
    (acac 0).stopped = none ∧ windowTooLong p32 [0x12#8, 0x09#8] = false
    ∧ p32.opcodeMap (hdrOp (headerWord 0x12 0x09)) = none
    ∧ p32.opcodeMap (hdrOp (headerWord 0x11 0x09)) = some .mov
    ∧ ([0x34#8] : List Byte).length < 2 * nimm p32 (hdrFmt (headerWord 0x11 0x09))
    ∧ ¬ ([0x34#8, 0x12#8] : List Byte).length < 2 * nimm p32 (hdrFmt (headerWord 0x11 0x09))
    ∧ windowTooLong p32 [0x11#8] = false := by decide

theorem witness_DecodedLengthAndExcessBytes :
    decodeWindow p32 [0x11#8, 0x09#8, 0x34#8, 0x12#8]
      = .ok { opcode := .mov, out := .r1, fmt := 2, op1 := .raw .r2, op2 := .const 0x1234, length := 4 }
    ∧ windowTooLong p32 (([0x11#8, 0x09#8, 0x34#8, 0x12#8] : List Byte).take 4 ++ [0xEE#8, 0xFF#8])
      = false := by decide

/-- Four bytes after the header are enough for every row, at every parameters; with an opcode that has a
tag, and with one that has none. -/
theorem witness_ToyHeaderRowsDecode :
    (acac 0).stopped = none
    ∧ (∀ p fmt, 2 * nimm p fmt ≤ ([0, 0, 0, 0] : List Byte).length)
    ∧ p32.opcodeMap 3 = some (.other 3) ∧ p32.opcodeMap 2 = none
    ∧ windowTooLong p32 (headerBytes 3 1 7 2 3 ++ [0, 0, 0, 0]) = false := by
  refine ⟨rfl, fun p fmt => ?_, rfl, rfl, rfl⟩
  have := nimm_le_two p fmt
  simp only [List.length_cons, List.length_nil]
  omega

theorem witness_MovDecodes :
    (acac 0).stopped = none ∧ 2 * nimm Config.params 2 ≤ ([0, 0, 0, 0] : List Byte).length
    ∧ p32.opcodeMap 1#4 = some .mov ∧ 2 * nimm p32 2 ≤ ([0, 0, 0, 0] : List Byte).length
    ∧ windowTooLong p32 (headerBytes 1 1 2 2 0 ++ [0, 0, 0, 0]) = false :=
  ⟨rfl, witness_ToyHeaderRowsDecode.2.1 _ 2, rfl, witness_ToyHeaderRowsDecode.2.1 p32 2, rfl⟩

theorem witness_DecodeOfEncodeForEveryInstruction :
    (Instr.hdrFmt111 2 7 0 7 [1]).wf Config.params = true
    ∧ (Instr.addSpace 0 (dn 1)).wf Config.params = true := by
  refine ⟨rfl, ?_⟩
  have h := dense_wf Config.params one_le_maxAddr
  have hb : (dn 1).built Config.params = true := built_iff.mpr ⟨h, rfl⟩
  simp [Instr.wf, Params.isAddr, hb]

theorem witness_EveryHeaderHasItsRow : 2 ≤ ([0x11#8, 0x09#8] : List Byte).length := by decide

end Sys2Proof.Tests
end

section
/-! The bits of a window (10_state.md R37). -/

namespace Sys2Proof.Machine

/-- Inside the window, the default byte of `windowBit` plays no part. -/
theorem windowBit_eq_getLsbD {w : List Byte} {i : Nat} (h : i / 8 < w.length) :
    windowBit w i = w[i / 8].getLsbD (i % 8) := by
  rw [windowBit, List.getD_eq_getElem w 0#8 h]

/-- Settles O39: the bit is one of its byte's, and a bit as a number is a shift and a remainder. -/
theorem windowBitOrder : Obligations.WindowBitOrder := by
  intro w i h
  calc (windowBit w i).toNat
      = (w[i / 8].toNat.testBit (i % 8)).toNat := by rw [windowBit_eq_getLsbD h, BitVec.getLsbD]
    _ = w[i / 8].toNat / 2 ^ (i % 8) % 2 := Nat.toNat_testBit _ _
    _ = (w[i / 8].toNat >>> (i % 8)) % 2 := by rw [Nat.shiftRight_eq_div_pow]

end Sys2Proof.Machine
end

section
/-! The header fields taken off the bit stream (30_encoding.md R74). -/

namespace Sys2Proof.Machine

/-- Stream bit `i` of a window's first two bytes is bit `i` of their little-endian word (R74). -/
theorem windowBit_eq_getLsbD_headerWord (b0 b1 : Byte) (rest : List Byte) {i : Nat} (h : i < 16) :
    windowBit (b0 :: b1 :: rest) i = (headerWord b0 b1).getLsbD i := by
  rw [headerWord, BitVec.getLsbD_append]
  by_cases hlow : i < 8
  · have hbyte : i / 8 = 0 := by omega
    have hbit : i % 8 = i := by omega
    simp [windowBit, hlow, hbyte, hbit]
  · have hbyte : i / 8 = 1 := by omega
    have hbit : i % 8 = i - 8 := by omega
    simp [windowBit, hlow, hbyte, hbit]

/-- A field collected inside the first two bytes is the same bits of the header word (R74, R137). -/
theorem ofNat_field_eq_extractLsb'_headerWord (b0 b1 : Byte) (rest : List Byte) {pos n : Nat}
    (h : pos + n ≤ 16) :
    BitVec.ofNat n (field (b0 :: b1 :: rest) pos n) = (headerWord b0 b1).extractLsb' pos n := by
  apply BitVec.eq_of_getLsbD_eq
  intro i hi
  rw [BitVec.getLsbD_ofNat, field_testBit,
    windowBit_eq_getLsbD_headerWord b0 b1 rest (by omega), BitVec.getLsbD_extractLsb']
  simp [hi]

/-- With 16 bits left, the Header state takes its five fields side by side and moves past them (R153). -/
theorem collectHeader_fits {c : Cursor} (h : 16 ≤ c.left) :
    collectHeader c =
      .ok (⟨BitVec.ofNat 4 (field c.window c.pos 4), BitVec.ofNat 3 (field c.window (c.pos + 4) 3),
          BitVec.ofNat 3 (field c.window (c.pos + 7) 3), BitVec.ofNat 3 (field c.window (c.pos + 10) 3),
          BitVec.ofNat 3 (field c.window (c.pos + 13) 3)⟩, { c with pos := c.pos + 16 }) := by
  have fits {k n : Nat} (hn : n ≤ 16) (hk : k + n ≤ 16) :
      collect { c with pos := c.pos + k } n 16
        = .ok (field c.window (c.pos + k) n, { c with pos := c.pos + (k + n) }) := by
    rw [← Nat.add_assoc]
    refine collect_fits hn ?_
    simp only [Cursor.left, Cursor.bits] at h ⊢
    omega
  have first : collect c 4 16 = .ok (field c.window c.pos 4, { c with pos := c.pos + 4 }) :=
    fits (k := 0) (by decide) (by decide)
  simp only [collectHeader, first, fits, Reply.bind_ok, Nat.reduceAdd, Nat.reduceLeDiff]

/-- Settles O52: two bytes are 16 bits, so the five fields fit, and each is its bits of the header word. -/
theorem headerFieldsOfTheStream : Obligations.HeaderFieldsOfTheStream := by
  intro b0 b1 rest
  have enough : 16 ≤ (⟨b0 :: b1 :: rest, 0⟩ : Cursor).left := by
    simp only [Cursor.left, Cursor.bits, List.length_cons]
    omega
  rw [collectHeader_fits enough]
  simp only [ofNat_field_eq_extractLsb'_headerWord, Nat.zero_add, Nat.reduceAdd, Nat.reduceLeDiff,
    hdrOp, hdrOut, hdrFmt, hdrR1, hdrR2]

end Sys2Proof.Machine
end

section
/-! The entries of a well-formed table, and the lookup among them (10_state.md R31 to R33,
40_router.md R110). -/

namespace Sys2Proof.Machine

theorem regions_wf_of_composite_wf {p : Params} {c : Composite} (h : c.wf p = true) :
    Regions.wf p c.total c.entries = true := by
  simp only [Composite.wf, Composite.toSpace, Space.wf, Bool.and_eq_true] at h
  exact h.2

theorem total_le_maxAddr_of_composite_wf {p : Params} {c : Composite} (h : c.wf p = true) :
    c.total ≤ p.maxAddr := by
  simp only [Composite.wf, Composite.toSpace, Space.wf, Bool.and_eq_true, decide_eq_true_eq] at h
  exact h.1.1

theorem regions_wf_cons {p : Params} {total off : Nat} {sub : Space} {rest : Regions} :
    Regions.wf p total (.cons off sub rest) = true ↔
      sub.wf p = true ∧ off + sub.size ≤ total
        ∧ (∀ k o s, rest.get? k = some (o, s) →
          off < o ∧ overlaps off (off + sub.size) o (o + s.size) = false)
        ∧ Regions.wf p total rest = true := by
  simp [Regions.wf, Regions.all_iff, and_assoc]

/-- Of two ranges that do not overlap, the one that starts first ends before the other starts. -/
theorem end_le_of_overlaps_false {a0 a1 b0 b1 : Nat} (h : overlaps a0 a1 b0 b1 = false) (hlt : a0 < b0) :
    a1 ≤ b0 := by
  simp only [overlaps, Bool.or_eq_false_iff, Bool.and_eq_false_iff, decide_eq_false_iff_not] at h
  omega

/-- In a well-formed table an entry with a lower index starts earlier and ends before the other starts. -/
theorem regions_ordered {p : Params} {total : Nat} {es : Regions} (h : Regions.wf p total es = true)
    {j k o o' : Nat} {s s' : Space} (hjk : j < k) (hj : es.get? j = some (o, s))
    (hk : es.get? k = some (o', s')) : o < o' ∧ o + s.size ≤ o' := by
  match es, j, k with
  | .nil, _, _ => cases hj
  | .cons off sub rest, 0, k + 1 =>
    obtain ⟨_, _, later, _⟩ := regions_wf_cons.mp h
    cases hj
    obtain ⟨hlt, hover⟩ := later k o' s' hk
    exact ⟨hlt, end_le_of_overlaps_false hover hlt⟩
  | .cons off sub rest, j + 1, k + 1 =>
    obtain ⟨_, _, _, hrest⟩ := regions_wf_cons.mp h
    exact regions_ordered hrest (Nat.lt_of_succ_lt_succ hjk) hj hk

/-- In a well-formed table the lookup finds exactly the entry that covers the address: the ranges are
disjoint, so there is only one. -/
theorem find_eq_some_iff {p : Params} {total : Nat} {es : Regions} (h : Regions.wf p total es = true)
    {a : Nat} {f : Found} :
    find es a = some f ↔ es.get? f.index = some (f.offset, f.sub) ∧ covers f.offset f.sub a = true := by
  refine ⟨find_some, fun ⟨hget, hcov⟩ => ?_⟩
  cases hfind : find es a with
  | none => rw [find_none hfind hget] at hcov; cases hcov
  | some g =>
    obtain ⟨hget', hcov'⟩ := find_some hfind
    have hf := covers_iff.mp hcov
    have hg := covers_iff.mp hcov'
    have same : g.index = f.index := by
      rcases Nat.lt_trichotomy g.index f.index with hlt | heq | hgt
      · have := regions_ordered h hlt hget' hget
        omega
      · exact heq
      · have := regions_ordered h hgt hget hget'
        omega
    rw [same, hget] at hget'
    obtain ⟨i, o, s⟩ := f
    obtain ⟨i', o', s'⟩ := g
    cases same
    cases hget'
    rfl

theorem find_eq_none_iff {es : Regions} {a : Nat} :
    find es a = none ↔ ∀ k off sub, es.get? k = some (off, sub) → covers off sub a = false := by
  refine ⟨fun h k off sub hk => find_none h hk, fun h => ?_⟩
  cases hfind : find es a with
  | none => rfl
  | some f =>
    obtain ⟨hget, hcov⟩ := find_some hfind
    rw [h _ _ _ hget] at hcov
    cases hcov

theorem exec_find {s : State} (a : Nat) (h : s.stopped = none) :
    exec (.find a) s = .next (s.respond (.ok (findValue s.root.entries a))) :=
  portQuery_running h

/-- Settles O31: the lookup finds the covering entry, and where no entry covers the address, nothing. -/
theorem findReportsTheEntry : Obligations.FindReportsTheEntry := by
  intro p s a hwf hrun
  rw [exec_find a hrun]
  constructor
  · intro k off sub hget hlo hhi
    have hit : find s.root.entries a = some ⟨k, off, sub⟩ :=
      (find_eq_some_iff (regions_wf_of_composite_wf hwf)).mpr ⟨hget, covers_iff.mpr ⟨hlo, hhi⟩⟩
    rw [findValue, hit]
  · intro hmiss
    have miss : find s.root.entries a = none :=
      find_eq_none_iff.mpr fun k off sub hget =>
        Bool.eq_false_iff.mpr fun hcov => hmiss k off sub hget (covers_iff.mp hcov)
    rw [findValue, miss]

end Sys2Proof.Machine
end

section
/-! The binary search (40_router.md R111). -/

namespace Sys2Proof.Machine

theorem get?_of_lt_count {es : Regions} {k : Nat} (h : k < es.count) :
    ∃ off sub, es.get? k = some (off, sub) := by
  match es, k with
  | .nil, _ => simp [Regions.count] at h
  | .cons off sub rest, 0 => exact ⟨off, sub, rfl⟩
  | .cons off sub rest, k + 1 => exact get?_of_lt_count (es := rest) (Nat.lt_of_succ_lt_succ h)

theorem lt_count_of_get? {es : Regions} {k : Nat} {e : Nat × Space} (h : es.get? k = some e) :
    k < es.count := by
  match es, k with
  | .nil, _ => cases h
  | .cons off sub rest, 0 => exact Nat.succ_pos _
  | .cons off sub rest, k + 1 => exact Nat.succ_lt_succ (lt_count_of_get? h)

theorem compareEntry_eq_lt {a off : Nat} {sub : Space} : compareEntry a off sub = .lt ↔ a < off := by
  unfold compareEntry
  grind

theorem compareEntry_eq_gt {a off : Nat} {sub : Space} :
    compareEntry a off sub = .gt ↔ off ≤ a ∧ off + sub.size ≤ a := by
  unfold compareEntry
  grind

theorem compareEntry_eq_eq {a off : Nat} {sub : Space} :
    compareEntry a off sub = .eq ↔ covers off sub a = true := by
  rw [covers_iff]
  unfold compareEntry
  grind

/-- Every entry that covers the address has its index in `[lo, hi)`: what the search keeps true of its
bounds. -/
def CoveredWithin (es : Regions) (a lo hi : Nat) : Prop :=
  ∀ k off sub, es.get? k = some (off, sub) → covers off sub a = true → lo ≤ k ∧ k < hi

/-- Below an entry, no entry from it on can cover the address: the offsets rise. -/
theorem coveredWithin_of_lt {p : Params} {total : Nat} {es : Regions} (h : Regions.wf p total es = true)
    {a lo hi mid off : Nat} {sub : Space} (hw : CoveredWithin es a lo hi)
    (hmid : es.get? mid = some (off, sub)) (hlt : a < off) : CoveredWithin es a lo mid := by
  intro k o s hk hcov
  refine ⟨(hw k o s hk hcov).1, ?_⟩
  have hcov := covers_iff.mp hcov
  by_contra hge
  rcases Nat.eq_or_lt_of_le (Nat.le_of_not_lt hge) with rfl | hgt
  · cases hmid.symm.trans hk
    omega
  · have := regions_ordered h hgt hmid hk
    omega

/-- Past an entry, no entry up to it can cover the address: each ends before the next one starts. -/
theorem coveredWithin_of_gt {p : Params} {total : Nat} {es : Regions} (h : Regions.wf p total es = true)
    {a lo hi mid off : Nat} {sub : Space} (hw : CoveredWithin es a lo hi)
    (hmid : es.get? mid = some (off, sub)) (hend : off + sub.size ≤ a) :
    CoveredWithin es a (mid + 1) hi := by
  intro k o s hk hcov
  refine ⟨?_, (hw k o s hk hcov).2⟩
  have hcov := covers_iff.mp hcov
  by_contra hle
  rcases Nat.eq_or_lt_of_le (Nat.le_of_lt_succ (Nat.lt_of_not_le hle)) with rfl | hlt
  · cases hmid.symm.trans hk
    omega
  · have := regions_ordered h hlt hk hmid
    omega

/-- The search between two bounds that enclose every covering entry finds what `find` finds. -/
theorem searchBetween_eq_find {p : Params} {total : Nat} {es : Regions}
    (h : Regions.wf p total es = true) {a fuel lo hi : Nat} (hfuel : hi - lo < fuel)
    (hhi : hi ≤ es.count) (hw : CoveredWithin es a lo hi) :
    searchBetween es a fuel lo hi = find es a := by
  induction fuel generalizing lo hi with
  | zero => omega
  | succ fuel ih =>
    rw [searchBetween]
    split
    next hlt =>
      obtain ⟨off, sub, hmid⟩ := get?_of_lt_count (es := es) (k := (lo + hi) / 2) (by omega)
      simp only [hmid]
      cases hcmp : compareEntry a off sub with
      | eq => exact ((find_eq_some_iff h).mpr ⟨hmid, compareEntry_eq_eq.mp hcmp⟩).symm
      | lt =>
        exact ih (by omega) (by omega) (coveredWithin_of_lt h hw hmid (compareEntry_eq_lt.mp hcmp))
      | gt =>
        obtain ⟨_, hend⟩ := compareEntry_eq_gt.mp hcmp
        exact ih (by omega) hhi (coveredWithin_of_gt h hw hmid hend)
    next hempty =>
      refine (find_eq_none_iff.mpr fun k off sub hk => Bool.eq_false_iff.mpr fun hcov => ?_).symm
      obtain ⟨hlo, hhi⟩ := hw k off sub hk hcov
      omega

/-- Settles O32: the search starts with the whole table between its bounds. -/
theorem binarySearchAgreesWithFind : Obligations.BinarySearchAgreesWithFind := by
  intro p c a hwf
  have start : CoveredWithin c.entries a 0 c.entries.count :=
    fun k _ _ hk _ => ⟨Nat.zero_le k, lt_count_of_get? hk⟩
  exact searchBetween_eq_find (regions_wf_of_composite_wf hwf) (by omega) (Nat.le_refl _) start

end Sys2Proof.Machine
end

section
/-! Registration: the insertion at the sorted slot (40_router.md R116 to R118). -/

namespace Sys2Proof.Machine

theorem sortedSlot_le_count (off : Nat) (es : Regions) : sortedSlot off es ≤ es.count := by
  match es with
  | .nil => exact Nat.le_refl 0
  | .cons o s rest =>
    have := sortedSlot_le_count off rest
    simp only [sortedSlot, Regions.count]
    split <;> omega

theorem sortedSlot_eq_zero {off : Nat} {es : Regions}
    (h : ∀ k o s, es.get? k = some (o, s) → off ≤ o) : sortedSlot off es = 0 := by
  match es with
  | .nil => rfl
  | .cons o s rest =>
    have first : off ≤ o := h 0 o s rfl
    rw [sortedSlot, if_neg (by omega), sortedSlot_eq_zero fun k => h (k + 1)]

/-- The offsets rise, so the entries counted by the slot are the first ones. -/
theorem lt_sortedSlot_iff {p : Params} {total : Nat} {es : Regions} (h : Regions.wf p total es = true)
    {off j o : Nat} {s : Space} (hj : es.get? j = some (o, s)) : j < sortedSlot off es ↔ o < off := by
  match es, j with
  | .nil, _ => cases hj
  | .cons o' s' rest, j =>
    obtain ⟨_, _, later, hrest⟩ := regions_wf_cons.mp h
    rw [sortedSlot]
    by_cases hlt : o' < off
    · rw [if_pos hlt]
      cases j with
      | zero => cases hj; simp [hlt]
      | succ j => rw [← lt_sortedSlot_iff hrest hj]; omega
    · have none_below : sortedSlot off rest = 0 :=
        sortedSlot_eq_zero fun k o s hk => by have := (later k o s hk).1; omega
      rw [if_neg hlt, none_below]
      cases j with
      | zero => cases hj; omega
      | succ j => have := (later j o s hj).1; omega

theorem get?_insertAt_self {es : Regions} {k off : Nat} {sub : Space} (h : k ≤ es.count) :
    (insertAt off sub k es).get? k = some (off, sub) := by
  match es, k with
  | _, 0 => rfl
  | .nil, k + 1 => simp [Regions.count] at h
  | .cons o s rest, k + 1 => exact get?_insertAt_self (es := rest) (Nat.le_of_succ_le_succ h)

theorem get?_insertAt_of_lt {es : Regions} {j k off : Nat} {sub : Space} (h : k ≤ es.count) (hj : j < k) :
    (insertAt off sub k es).get? j = es.get? j := by
  match es, k, j with
  | .nil, k + 1, _ => simp [Regions.count] at h
  | .cons o s rest, k + 1, 0 => rfl
  | .cons o s rest, k + 1, j + 1 =>
    exact get?_insertAt_of_lt (es := rest) (Nat.le_of_succ_le_succ h) (Nat.lt_of_succ_lt_succ hj)

theorem get?_insertAt_succ_of_le {es : Regions} {j k off : Nat} {sub : Space} (h : k ≤ es.count)
    (hj : k ≤ j) : (insertAt off sub k es).get? (j + 1) = es.get? j := by
  match es, k, j with
  | _, 0, _ => rfl
  | .nil, k + 1, _ => simp [Regions.count] at h
  | .cons o s rest, k + 1, j + 1 =>
    exact get?_insertAt_succ_of_le (es := rest) (Nat.le_of_succ_le_succ h) (Nat.le_of_succ_le_succ hj)

theorem insertedAt_sortedSlot {p : Params} {total : Nat} {es : Regions} (h : Regions.wf p total es = true)
    (off : Nat) (sub : Space) :
    InsertedAt es (insertAt off sub (sortedSlot off es) es) off sub (sortedSlot off es) :=
  have hslot := sortedSlot_le_count off es
  ⟨get?_insertAt_self hslot, fun _ => get?_insertAt_of_lt hslot, fun _ => get?_insertAt_succ_of_le hslot,
    fun _ _ _ => lt_sortedSlot_iff h⟩

/-- A space that passes the bound and the overlap check meets the capacity check alone (R117). -/
theorem registerSpace_of_addable {p : Params} {parent : Composite} {off : Nat} {sub : Space}
    (h : Addable p parent off sub) :
    registerSpace p parent off sub =
      if tableFull p parent.entries then .refused .tableFull
      else .ok ({ parent with entries := insertAt off sub (sortedSlot off parent.entries) parent.entries },
        sortedSlot off parent.entries) := by
  obtain ⟨hwf, hfit, hapart⟩ := h
  have hmax : parent.total ≤ p.uncapped.maxAddr := total_le_maxAddr_of_composite_wf hwf
  rw [maxAddr_uncapped] at hmax
  have hend : checkedAdd p off sub.size = .ok (off + sub.size) := checkedAdd_ok.mpr ⟨by omega, rfl⟩
  have hno : overlapsAny off (off + sub.size) parent.entries = false := overlapsAny_false.mpr hapart
  rw [registerSpace, hend, Reply.bind_ok, if_neg (by omega), hno, if_neg Bool.false_ne_true]

/-- The command's outcome on a table with room, at every parameters. -/
theorem addToRoot_inserts {p : Params} {s : State} {off : Nat} {sp : Space} (hrun : s.stopped = none)
    (h : Addable p s.root off sp) (hroom : tableFull p s.root.entries = false) :
    ∃ k es, InsertedAt s.root.entries es off sp k
      ∧ portCommand s (addToRoot p off sp s)
        = .next ((s.setRoot { s.root with entries := es }).respond (.ok (.index k))) := by
  refine ⟨_, _, insertedAt_sortedSlot (regions_wf_of_composite_wf h.1) off sp, ?_⟩
  rw [portCommand_running hrun, addToRoot, registerSpace_of_addable h, hroom, if_neg Bool.false_ne_true,
    Reply.map_ok, deliver_ok]

theorem exec_addSpace (off : Nat) (sp : Space) (s : State) :
    exec (.addSpace off sp) s = portCommand s (addToRoot Config.params off sp s) := rfl

/-- Settles O33: of the three checks only the capacity is left, and the slot is the sorted one. -/
theorem addSpaceInsertsAtTheSortedSlot : Obligations.AddSpaceInsertsAtTheSortedSlot := by
  refine ⟨fun s off sp hrun h => ?_, fun p s off sp hrun h hroom => addToRoot_inserts hrun h hroom⟩
  rw [exec_addSpace]
  split
  next hfull =>
    rw [portCommand_running hrun, addToRoot, registerSpace_of_addable h, if_pos hfull, Reply.map_refused,
      deliver_refused]
  next hroom => exact addToRoot_inserts hrun h (Bool.eq_false_iff.mpr hroom)

end Sys2Proof.Machine
end

section
/-! READ (40_router.md R94 to R100). -/

namespace Sys2Proof.Machine

theorem readBytes_eq_map_range (m : Memory) (a n : Nat) :
    readBytes m a n = (List.range n).map fun i => readByte m (a + i) :=
  List.ext_getElem (by simp) fun i _ _ => by simp [readBytes_get]

theorem memRead_leaf {sp : Space} {start stop : Nat} (hleaf : sp.kind ≠ .sparse) (h : start ≤ stop)
    (hfit : stop ≤ sp.size) :
    memRead sp start stop = .ok ((List.range (stop - start)).map fun i => leafByte sp (start + i)) := by
  cases sp with
  | dense d => rw [memRead_dense h hfit, readBytes_eq_map_range]; rfl
  | zero n => rw [memRead_zero (n := n) h hfit]; simp [leafByte]
  | rom d => rw [memRead_rom h hfit, readBytes_eq_map_range]; rfl
  | sparse t es => exact absurd rfl hleaf

theorem memRead_leaf_outOfBounds {sp : Space} {start stop : Nat} (hleaf : sp.kind ≠ .sparse)
    (h : start ≤ stop) (hpast : stop > sp.size) : memRead sp start stop = .err .outOfBounds := by
  have hord : ¬start > stop := by omega
  cases sp with
  | dense d => rw [memRead, if_neg hord]; exact if_pos hpast
  | zero n => rw [memRead, if_neg hord]; exact if_pos hpast
  | rom d => rw [memRead, if_neg hord]; exact if_pos hpast
  | sparse t es => exact absurd rfl hleaf

/-- A span that ends past the entry that contains its start (R98). -/
theorem memRead_sparse_crossing {total : Nat} {es : Regions} {start stop : Nat} {f : Found}
    (hfind : find es start = some f) (h : start ≤ stop) (hcross : stop > f.offset + f.sub.size) :
    memRead (.sparse total es) start stop = .err .invalidAccess := by
  rw [memRead_sparse h, hfind]
  exact if_pos (by omega)

/-- A span inside the entry that contains its start is the entry's to read (R98). -/
theorem memRead_sparse_inside {total : Nat} {es : Regions} {start stop : Nat} {f : Found}
    (hfind : find es start = some f) (h : start ≤ stop) (hfit : stop ≤ f.offset + f.sub.size) :
    memRead (.sparse total es) start stop = memRead f.sub (start - f.offset) (stop - f.offset) := by
  rw [memRead_sparse h, hfind]
  exact if_neg (by omega)

theorem exec_read {s : State} (start stop : Nat) (h : s.stopped = none) :
    exec (.read start stop) s =
      .next (deliver s (((memRead s.root.toSpace start stop).map .data).map fun v => (v, s))) :=
  portQuery_running h

/-- Settles O22: a rule for each check of each kind of space, and a read has no other outcomes. -/
theorem readChecksInOrder : Obligations.ReadChecksInOrder := by
  refine ⟨fun sp start stop => memRead_reversed, ?leaf, ?composite, ?command⟩
  case leaf =>
    intro sp start stop hleaf h
    split
    next hpast => exact memRead_leaf_outOfBounds hleaf h hpast
    next hfit => exact memRead_leaf hleaf h (Nat.le_of_not_lt hfit)
  case composite =>
    intro total es start stop h
    cases hfind : find es start with
    | none => simp only [memRead_sparse h, hfind]
    | some f =>
      simp only
      split
      next hcross => exact memRead_sparse_crossing hfind h hcross
      next hfit =>
        have inside := memRead_sparse_inside (total := total) hfind h (Nat.le_of_not_lt hfit)
        refine ⟨inside, fun hleaf => ⟨_, inside.trans (memRead_leaf hleaf ?_ ?_)⟩⟩ <;> omega
  case command =>
    intro s start stop hrun
    rw [exec_read start stop hrun]
    obtain ⟨noFault, noRefusal⟩ := memRead_plain s.root.toSpace start stop
    cases hread : memRead s.root.toSpace start stop with
    | ok data => rfl
    | err k => rfl
    | fault d => exact noFault d hread
    | refused q => exact noRefusal q hread

end Sys2Proof.Machine
end

section
/-! WRITE (40_router.md R101 to R107). -/

namespace Sys2Proof.Machine

/-- Settles O28: the write of these two kinds answers before it looks at address or data. -/
theorem readOnlyStoresRejectEveryWrite : Obligations.ReadOnlyStoresRejectEveryWrite :=
  fun _ _ _ _ _ => ⟨rfl, rfl⟩

/-- A Dense write checks the length and the end against the greatest Address, then the size (R102). -/
theorem denseWrite_eq (p : Params) (d : Dense) (addr : Nat) (data : List Byte) :
    denseWrite p d addr data =
      if data.length > p.maxAddr ∨ addr + data.length > p.maxAddr then .err .overflow
      else if addr + data.length > d.size then .err .outOfBounds
      else .ok { d with bytes := writeBytes d.bytes addr data } := by
  simp only [denseWrite, toAddr, checkedAdd]
  by_cases hlen : data.length ≤ p.maxAddr
  · by_cases hend : addr + data.length ≤ p.maxAddr <;> simp [hlen, hend, Nat.not_lt.mpr]
  · simp [hlen, Nat.lt_of_not_le]

/-- What the entry `(off, sub)` answers to a write at an address that it covers: the checks of R105 in
order, then the sub-space's own write. -/
def entryWrite (p : Params) (off : Nat) (sub : Space) (addr : Nat) (data : List Byte) : Reply Space :=
  if data.length > p.maxAddr then .err .overflow
  else if addr - off + data.length > p.maxAddr then .err .overflow
  else if addr - off + data.length > sub.size then .err .invalidAccess
  else memWrite p sub (addr - off) data

/-- The table with the sub-space of entry `k` replaced (R105). -/
def replaceSub (sub' : Space) : Nat → Regions → Regions
  | _, .nil => .nil
  | 0, .cons off _ rest => .cons off sub' rest
  | k + 1, .cons off sub rest => .cons off sub (replaceSub sub' k rest)

theorem writeEntries_cons_covers {p : Params} {off : Nat} {sub : Space} {rest : Regions} {addr : Nat}
    (data : List Byte) (h : covers off sub addr = true) :
    writeEntries p (.cons off sub rest) addr data
      = (entryWrite p off sub addr data).map fun sub' => .cons off sub' rest := by
  rw [writeEntries, if_pos h, translate_of_covers h]
  simp only [Reply.bind_ok, toAddr, checkedAdd, entryWrite]
  by_cases hlen : data.length ≤ p.maxAddr
  · by_cases hend : addr - off + data.length ≤ p.maxAddr
    · by_cases hfit : addr - off + data.length > sub.size <;> simp [hlen, hend, hfit, Nat.not_lt.mpr]
    · simp [hlen, hend, Nat.not_lt.mpr, Nat.lt_of_not_le]
  · simp [hlen, Nat.lt_of_not_le]

theorem writeEntries_unmapped {p : Params} {es : Regions} {addr : Nat} {data : List Byte}
    (h : find es addr = none) : writeEntries p es addr data = .err .invalidAccess := by
  match es with
  | .nil => rfl
  | .cons off sub rest =>
    by_cases hc : covers off sub addr = true
    · simp [find, hc] at h
    · have hrest : find rest addr = none := by simpa [find, hc] using h
      rw [writeEntries, if_neg hc, writeEntries_unmapped hrest, Reply.map_err]

/-- The write of a table is the write of the entry `find` gives, put back in its place (R105). -/
theorem writeEntries_mapped {p : Params} {es : Regions} {addr : Nat} {data : List Byte} {f : Found}
    (h : find es addr = some f) :
    writeEntries p es addr data
      = (entryWrite p f.offset f.sub addr data).map fun sub' => replaceSub sub' f.index es := by
  match es with
  | .nil => cases h
  | .cons off sub rest =>
    by_cases hc : covers off sub addr = true
    · rw [find, if_pos hc] at h
      cases h
      exact writeEntries_cons_covers data hc
    · rw [find, if_neg hc] at h
      obtain ⟨g, hg, rfl⟩ := Option.map_eq_some_iff.mp h
      rw [writeEntries, if_neg hc, writeEntries_mapped hg]
      cases entryWrite p g.offset g.sub addr data <;> rfl

theorem get?_replaceSub_self {es : Regions} {k off : Nat} {sub : Space} (sub' : Space)
    (h : es.get? k = some (off, sub)) : (replaceSub sub' k es).get? k = some (off, sub') := by
  match es, k with
  | .nil, _ => cases h
  | .cons _ _ _, 0 => cases h; rfl
  | .cons _ _ rest, k + 1 => exact get?_replaceSub_self (es := rest) sub' h

theorem get?_replaceSub_of_ne {es : Regions} {j k : Nat} (sub' : Space) (h : j ≠ k) :
    (replaceSub sub' k es).get? j = es.get? j := by
  match es, k, j with
  | .nil, _, _ => simp [replaceSub]
  | .cons _ _ _, 0, 0 => exact absurd rfl h
  | .cons _ _ _, 0, j + 1 => rfl
  | .cons _ _ _, k + 1, 0 => rfl
  | .cons _ _ rest, k + 1, j + 1 => exact get?_replaceSub_of_ne (es := rest) sub' (by omega)

theorem replacedAt_replaceSub {es : Regions} {a : Nat} {f : Found} (sub' : Space)
    (h : find es a = some f) : ReplacedAt es (replaceSub sub' f.index es) f.index f.offset sub' :=
  ⟨get?_replaceSub_self sub' (find_some h).1, fun _ => get?_replaceSub_of_ne sub'⟩

theorem memWrite_sparse_unmapped {p : Params} {total : Nat} {es : Regions} {addr : Nat} {data : List Byte}
    (h : find es addr = none) : memWrite p (.sparse total es) addr data = .err .invalidAccess := by
  rw [memWrite, writeEntries_unmapped h, Reply.map_err]

theorem memWrite_sparse_mapped {p : Params} {total : Nat} {es : Regions} {addr : Nat} {data : List Byte}
    {f : Found} (h : find es addr = some f) :
    memWrite p (.sparse total es) addr data =
      (entryWrite p f.offset f.sub addr data).map fun sub' => .sparse total (replaceSub sub' f.index es) := by
  rw [memWrite, writeEntries_mapped h]
  cases entryWrite p f.offset f.sub addr data <;> rfl

theorem exec_write {s : State} (addr : Nat) (data : List Byte) (h : s.stopped = none) :
    exec (.write addr data) s = .next (deliver s (writeRoot Config.params addr data s)) :=
  portCommand_running h

/-- Settles O27: a rule for each check of each kind of space, and a write has no other outcomes. -/
theorem writeChecksInOrder : Obligations.WriteChecksInOrder := by
  refine ⟨?dense, readOnlyStoresRejectEveryWrite, ?composite, ?command⟩
  case dense =>
    intro p d addr data
    rw [memWrite, denseWrite_eq]
    split_ifs with hmax hfit
    · rfl
    · rfl
    · exact ⟨_, rfl, rfl, fun hm => readByte_writeBytes_inside _ _ _ hm,
        fun x => readByte_writeBytes_outside _ _ x _⟩
  case composite =>
    intro p total es addr data
    cases hfind : find es addr with
    | none => exact memWrite_sparse_unmapped hfind
    | some f =>
      simp only [memWrite_sparse_mapped hfind]
      split_ifs with hlen hend hfit
      · rw [entryWrite, if_pos hlen, Reply.map_err]
      · rw [entryWrite, if_neg hlen, if_pos hend, Reply.map_err]
      · rw [entryWrite, if_neg hlen, if_neg hend, if_pos hfit, Reply.map_err]
      · rw [entryWrite, if_neg hlen, if_neg hend, if_neg hfit]
        obtain ⟨noFault, noRefusal⟩ := memWrite_plain p f.sub (addr - f.offset) data
        cases hsub : memWrite p f.sub (addr - f.offset) data with
        | ok sub' => exact ⟨_, replacedAt_replaceSub sub' hfind, rfl⟩
        | err k => rfl
        | fault d => exact noFault d hsub
        | refused q => exact noRefusal q hsub
  case command =>
    intro s addr data hrun
    obtain ⟨noFault, noRefusal⟩ := memWrite_plain Config.params s.root.toSpace addr data
    rw [exec_write addr data hrun, writeRoot]
    rw [Composite.toSpace, memWrite] at noFault noRefusal ⊢
    cases hw : writeEntries Config.params s.root.entries addr data with
    | ok es => exact ⟨{ s.root with entries := es }, rfl, rfl⟩
    | err k => rfl
    | fault d => exact noFault d (Reply.map_eq_fault.mpr hw)
    | refused q => exact noRefusal q (Reply.map_eq_refused.mpr hw)

end Sys2Proof.Machine
end

section
/-! Field values (41_scanner.md R137). -/

namespace Sys2Proof.Machine

/-- Settles O44: the bits of a field are its summands, and the bound is that of `field_lt`. -/
theorem fieldIsTheSumOfItsBits : Obligations.FieldIsTheSumOfItsBits := by
  intro window pos w
  refine ⟨?_, field_lt window pos w⟩
  induction w with
  | zero => rfl
  | succ w ih => rw [Finset.sum_range_succ, field, ih, Nat.shiftLeft_eq]

/-- A field is its first `m` bits and, `m` places up, the field after them. -/
theorem field_add (window : List Byte) (pos m n : Nat) :
    field window pos (m + n) = field window pos m + field window (pos + m) n <<< m := by
  induction n with
  | zero => simp [field]
  | succ n ih =>
    rw [← Nat.add_assoc, field, ih, field, Nat.add_assoc pos m n]
    simp only [Nat.shiftLeft_eq]
    ring

/-- The first bit of a field is its least significant one (R137). -/
theorem field_succ_eq_head_add (window : List Byte) (pos n : Nat) :
    field window pos (n + 1) = (windowBit window pos).toNat + 2 * field window (pos + 1) n := by
  rw [Nat.add_comm n 1, field_add, Nat.shiftLeft_eq, Nat.pow_one, Nat.mul_comm 2]
  simp [field]

end Sys2Proof.Machine
end

section
/-! The byte-wise assembly of a field (41_scanner.md R138). -/

namespace Sys2Proof.Machine

theorem field_add_eq_or (window : List Byte) (pos m n : Nat) :
    field window pos (m + n) = field window pos m ||| field window (pos + m) n <<< m := by
  rw [field_add, Nat.add_comm, Nat.shiftLeft_add_eq_or_of_lt (field_lt window pos m), Nat.or_comm]

/-- The low `n` bits of a field are the shorter field at the same place. -/
theorem field_and_two_pow_sub_one (window : List Byte) (pos : Nat) {m n : Nat} (h : n ≤ m) :
    field window pos m &&& (2 ^ n - 1) = field window pos n := by
  apply Nat.eq_of_testBit_eq
  intro i
  rw [Nat.testBit_and, Nat.testBit_two_pow_sub_one, field_testBit, field_testBit]
  by_cases hi : i < n
  · simp [hi, Nat.lt_of_lt_of_le hi h]
  · simp [hi]

/-- The field from `pos` to the end of its byte is that byte, shifted down to the place of `pos`. -/
theorem shiftRight_eq_field (window : List Byte) (pos : Nat) :
    (window.getD (pos / 8) 0#8).toNat >>> (pos % 8) = field window pos (8 - pos % 8) := by
  apply Nat.eq_of_testBit_eq
  intro i
  rw [Nat.testBit_shiftRight, field_testBit, BitVec.testBit_toNat]
  by_cases hi : i < 8 - pos % 8
  · have same_byte : (pos + i) / 8 = pos / 8 := by omega
    have place : (pos + i) % 8 = pos % 8 + i := by omega
    simp [windowBit, hi, same_byte, place]
  · rw [BitVec.getLsbD_of_ge _ _ (by omega)]
    simp [hi]

/-- A whole byte is the field of its eight bits. -/
theorem byte_eq_field (window : List Byte) (i : Nat) :
    (window.getD i 0#8).toNat = field window (8 * i) 8 := by
  simpa using shiftRight_eq_field window (8 * i)

/-- The rounds complete a field whose first `got` bits stand in the accumulator: the next byte starts where
they end, and the rounds are enough for the bits that are missing. -/
theorem assembleBytes_eq_field {window : List Byte} {pos need fuel i got : Nat} (hgot : got ≤ need)
    (hnext : pos + got = 8 * i) (hfuel : need - got < 8 * fuel) :
    assembleBytes window need fuel i (field window pos got) got = field window pos need := by
  induction fuel generalizing i got with
  | zero => omega
  | succ fuel ih =>
    rw [assembleBytes, byte_eq_field, ← hnext]
    split_ifs with hwhole hpartial
    · rw [← field_add_eq_or]
      exact ih (by omega) (by omega) (by omega)
    · rw [field_and_two_pow_sub_one window _ (by omega), ← field_add_eq_or, Nat.add_sub_cancel' hgot]
    · rw [show got = need by omega]

/-- Settles O47: a field inside one byte is a masked part of it, and a longer one is what the rounds make of
the end of its first byte. The two agree past the end of the window too, where both read zero bytes. -/
theorem bytewiseAssemblyEqualsTheField : Obligations.BytewiseAssemblyEqualsTheField := by
  intro window pos w _
  rw [fieldBytewise, shiftRight_eq_field]
  split_ifs with hempty hinside
  · rw [hempty, field]
  · exact field_and_two_pow_sub_one window pos hinside
  · exact assembleBytes_eq_field (by omega) (by omega) (by omega)

end Sys2Proof.Machine
end

section
/-! The scanner commands that take bits (41_scanner.md R131 to R141). -/

namespace Sys2Proof.Machine

theorem peekBit_exhausted {c : Cursor} (h : c.pos ≥ 8 * c.window.length) :
    peekBit c = .err .exhausted :=
  if_pos h

theorem peekBit_inside {c : Cursor} (h : ¬ c.pos ≥ 8 * c.window.length) :
    peekBit c = .ok (windowBit c.window c.pos) :=
  if_neg h

theorem collect_tooWide {c : Cursor} {w target : Nat} (h : w > target) :
    collect c w target = .refused .widthExceedsTarget :=
  if_pos h

theorem exec_peekBit {s : State} (h : s.stopped = none) :
    exec .peekBit s = .next (deliver s (((peekBit s.scan).map .bit).map fun v => (v, s))) :=
  portQuery_running h

theorem exec_nextBit {s : State} (h : s.stopped = none) :
    exec .nextBit s = .next (deliver s ((nextBit s.scan).map fun (b, c) => (.bit b, s.setScan c))) :=
  portCommand_running h

theorem exec_collect {s : State} (w : BitVec 7) (t : BitVec 2) (h : s.stopped = none) :
    exec (.collect w t) s = .next (deliver s (collectScan w.toNat (8 <<< t.toNat) s)) :=
  portCommand_running h

theorem exec_nextBit_exhausted {s : State} (h : s.stopped = none)
    (hend : s.scan.pos ≥ 8 * s.scan.window.length) :
    exec .nextBit s = .next (s.respond (.err .exhausted)) := by
  rw [exec_nextBit h, nextBit, peekBit_exhausted hend]
  rfl

theorem exec_nextBit_inside {s : State} (h : s.stopped = none)
    (hin : ¬ s.scan.pos ≥ 8 * s.scan.window.length) :
    exec .nextBit s = .next ((s.setScan ⟨s.scan.window, s.scan.pos + 1⟩).respond
      (.ok (.bit (windowBit s.scan.window s.scan.pos)))) := by
  rw [exec_nextBit h, nextBit, peekBit_inside hin]
  rfl

theorem exec_collect_exhausted {s : State} {w : BitVec 7} {t : BitVec 2} (h : s.stopped = none)
    (hw : w.toNat ≤ 8 <<< t.toNat) (hshort : 8 * s.scan.window.length - s.scan.pos < w.toNat) :
    exec (.collect w t) s = .next (s.respond (.err .exhausted)) := by
  rw [exec_collect w t h, collectScan, collect_short hw hshort]
  rfl

theorem exec_collect_fits {s : State} {w : BitVec 7} {t : BitVec 2} (h : s.stopped = none)
    (hw : w.toNat ≤ 8 <<< t.toNat) (hleft : w.toNat ≤ 8 * s.scan.window.length - s.scan.pos) :
    exec (.collect w t) s = .next ((s.setScan ⟨s.scan.window, s.scan.pos + w.toNat⟩).respond
      (.ok (.field (BitVec.ofNat 64 (field s.scan.window s.scan.pos w.toNat))))) := by
  rw [exec_collect w t h, collectScan, collect_fits hw hleft]
  rfl

/-- SCAN_LOAD's one check decides between the refusal and the new window, at every parameters (R131). -/
theorem portCommand_loadWindow (p : Params) (window : List Byte) {s : State} (h : s.stopped = none) :
    portCommand s (loadWindow p window s)
      = .next (windowAnswer p window s ((s.setScan ⟨window, 0⟩).respond (.ok .unit))) := by
  rw [portCommand_running h, loadWindow, windowAnswer]
  split
  next => rw [deliver_refused]
  next => rw [deliver_ok]

/-- Settles O40: the command is the same at the machine's parameters as at any other. -/
theorem scanLoadTakesTheWindow : Obligations.ScanLoadTakesTheWindow := fun p _ w hrun =>
  ⟨portCommand_loadWindow Config.params w hrun, portCommand_loadWindow p w hrun⟩

/-- Settles O42, by the two sides of the end of the window. -/
theorem peekBitAnswersTheBit : Obligations.PeekBitAnswersTheBit := by
  intro s hrun
  rw [exec_peekBit hrun]
  split
  next hend => rw [peekBit_exhausted hend]; rfl
  next hin => rw [peekBit_inside hin]; rfl

/-- Settles O43, by the two sides of the end of the window. -/
theorem nextBitAdvances : Obligations.NextBitAdvances := by
  intro s hrun
  split
  next hend => exact exec_nextBit_exhausted hrun hend
  next hin => exact exec_nextBit_inside hrun hin

/-- Settles O45: one rule for each check, in their order. -/
theorem collectTakesTheField : Obligations.CollectTakesTheField := by
  intro s w t hrun
  split_ifs with hwide hshort
  · rw [exec_collect w t hrun, collectScan, collect_tooWide hwide]
    rfl
  · exact exec_collect_exhausted hrun (Nat.le_of_not_lt hwide) hshort
  · exact exec_collect_fits hrun (Nat.le_of_not_lt hwide) (Nat.le_of_not_lt hshort)

/-- Every target width is a width operand: the greatest one is 64 (00_scope.md R14). -/
theorem toNat_ofNat_targetWidth (t : BitVec 2) :
    (BitVec.ofNat 7 (8 <<< t.toNat)).toNat = 8 <<< t.toNat := by
  revert t
  decide

/-- Settles O46: the width operand holds the target's width, so the two commands collect the same field. -/
theorem collectTypeIsCollectOfTheWidth : Obligations.CollectTypeIsCollectOfTheWidth := by
  intro s t
  have width := toNat_ofNat_targetWidth t
  have same : exec (.collectType t) s = exec (.collect (BitVec.ofNat 7 (8 <<< t.toNat)) t) s := by
    change portCommand s (collectScan (8 <<< t.toNat) (8 <<< t.toNat) s)
      = portCommand s (collectScan (BitVec.ofNat 7 (8 <<< t.toNat)).toNat (8 <<< t.toNat) s)
    rw [width]
  refine ⟨same, fun hrun hleft => ?_⟩
  rw [same, exec_collect_fits hrun width.le (width.le.trans hleft), width]

end Sys2Proof.Machine
end

section
/-! COLLECT against successive NEXT_BITs (41_scanner.md R139). -/

namespace Sys2Proof.Machine

/-- With `n` bits left, `n` NEXT_BITs answer the bits of the field of width `n` and move past it. -/
theorem nextBits_fits {n : Nat} {s : State} (hrun : s.stopped = none)
    (hleft : n ≤ 8 * s.scan.window.length - s.scan.pos) :
    ∃ bits u, nextBits n s = some (bits, u) ∧ bits.length = n
      ∧ bitsToNat bits = field s.scan.window s.scan.pos n
      ∧ u.scan = ⟨s.scan.window, s.scan.pos + n⟩ := by
  induction n generalizing s with
  | zero => exact ⟨[], s, rfl, rfl, rfl, rfl⟩
  | succ n ih =>
    have first := exec_nextBit_inside hrun (by omega)
    obtain ⟨bits, u, hbits, hlen, hval, hscan⟩ :=
      ih (s := (s.setScan ⟨s.scan.window, s.scan.pos + 1⟩).respond
        (.ok (.bit (windowBit s.scan.window s.scan.pos)))) hrun
        (by simp only [State.respond_scan, State.setScan_scan]; omega)
    refine ⟨windowBit s.scan.window s.scan.pos :: bits, u, ?_, ?_, ?_, ?_⟩
    · simp [nextBits, first, hbits]
    · rw [List.length_cons, hlen]
    · rw [field_succ_eq_head_add, bitsToNat, hval]
      rfl
    · rw [hscan, Nat.add_comm n 1, ← Nat.add_assoc]
      rfl

/-- Settles O48: both answer the field and end at the cursor past it. -/
theorem collectEqualsRepeatedNextBit : Obligations.CollectEqualsRepeatedNextBit := by
  intro s w t hrun hw hleft
  obtain ⟨bits, u, hbits, hlen, hval, hscan⟩ := nextBits_fits hrun hleft
  refine ⟨bits, u, _, hbits, hlen, exec_collect_fits hrun hw hleft, ?_, ?_⟩
  · rw [State.respond_response, hval]
  · rw [State.respond_scan, State.setScan_scan, hscan]

end Sys2Proof.Machine
end

section
/-! What a command does to the scanner unit (41_scanner.md R134, R148). -/

namespace Sys2Proof.Machine

/-- The cursor `c'` is `c` moved forward in the same window by bits that were left, or not moved. -/
def Cursor.MovesTo (c c' : Cursor) : Prop :=
  ∃ n, n ≤ c.left ∧ c' = ⟨c.window, c.pos + n⟩

theorem Cursor.MovesTo.of_eq {c c' : Cursor} (h : c' = c) : c.MovesTo c' := ⟨0, Nat.zero_le _, h⟩

/-- A move from inside the window stays inside it. -/
theorem Cursor.MovesTo.pos_le {c c' : Cursor} (h : c.MovesTo c') (hc : c.pos ≤ 8 * c.window.length) :
    c'.pos ≤ 8 * c'.window.length := by
  obtain ⟨n, hn, rfl⟩ := h
  simp only [Cursor.left, Cursor.bits] at hn
  simp only
  omega

/-- From the end there is nowhere to move. -/
theorem Cursor.MovesTo.eq_of_exhausted {c c' : Cursor} (h : c.MovesTo c')
    (hc : c.pos = 8 * c.window.length) : c' = c := by
  obtain ⟨n, hn, rfl⟩ := h
  have none_left : n = 0 := by
    simp only [Cursor.left, Cursor.bits] at hn
    omega
  rw [none_left, Nat.add_zero]

theorem nextBit_movesTo {c c' : Cursor} {b : Bool} (h : nextBit c = .ok (b, c')) : c.MovesTo c' := by
  by_cases hend : c.pos ≥ 8 * c.window.length
  · rw [nextBit, peekBit_exhausted hend] at h
    cases h
  · rw [nextBit, peekBit_inside hend] at h
    cases h
    refine ⟨1, ?_, rfl⟩
    simp only [Cursor.left, Cursor.bits]
    omega

theorem collect_movesTo {c c' : Cursor} {w target v : Nat} (h : collect c w target = .ok (v, c')) :
    c.MovesTo c' := by
  obtain ⟨_, hleft, _, hc'⟩ := collect_ok.mp h
  exact ⟨w, hleft, hc'⟩

/-- A delivery that is no `OK` leaves the scanner unit, and an `OK` leaves it as the command made it. -/
theorem deliver_scan (s : State) (r : Reply (Value × State)) :
    (deliver s r).scan = s.scan ∨ ∃ v u, r = .ok (v, u) ∧ (deliver s r).scan = u.scan := by
  cases r with
  | ok a => exact .inr ⟨a.1, a.2, rfl, rfl⟩
  | err k => exact .inl rfl
  | fault d => exact .inl rfl
  | refused q => exact .inl rfl

/-- A port command moves the cursor only as its `OK` result does. -/
theorem portCommand_movesTo {s t : State} {r : Reply (Value × State)} (h : portCommand s r = .next t)
    (hok : ∀ v u, r = .ok (v, u) → s.scan.MovesTo u.scan) : s.scan.MovesTo t.scan := by
  obtain ⟨_, rfl⟩ := portCommand_next h
  rcases deliver_scan s r with hkeep | ⟨v, u, hr, hscan⟩
  · exact .of_eq hkeep
  · rw [hscan]
    exact hok v u hr

theorem portQuery_scan {s t : State} {r : Reply Value} (h : portQuery s r = .next t) :
    t.scan = s.scan := by
  obtain ⟨_, rfl⟩ := portCommand_next h
  cases r <;> rfl

theorem hostRun_scan {s t : State} {r : Reply Value} (h : hostRun s r = .next t) : t.scan = s.scan := by
  rcases hostRun_next h with ⟨_, rfl⟩ | ⟨_, rfl⟩
  · cases r <;> rfl
  · rfl

theorem collectScan_movesTo {s t : State} {w target : Nat}
    (h : portCommand s (collectScan w target s) = .next t) : s.scan.MovesTo t.scan := by
  refine portCommand_movesTo h fun v u hok => ?_
  obtain ⟨⟨_, _⟩, hcollect, heq⟩ := Reply.map_eq_ok.mp hok
  cases heq
  exact collect_movesTo hcollect

/-- No instruction but SCAN_LOAD does more to the scanner unit than move its cursor over bits that were
left (R148). -/
theorem exec_movesTo {i : Instr} {s t : State} (hi : ∀ w, i ≠ .scanLoad w) (h : exec i s = .next t) :
    s.scan.MovesTo t.scan := by
  cases i with
  | scanLoad w => exact absurd rfl (hi w)
  | nextBit =>
    refine portCommand_movesTo h fun v u hok => ?_
    obtain ⟨⟨_, _⟩, hnext, heq⟩ := Reply.map_eq_ok.mp hok
    cases heq
    exact nextBit_movesTo hnext
  | collect w t => exact collectScan_movesTo h
  | collectType t => exact collectScan_movesTo h
  | write addr data =>
    refine portCommand_movesTo h fun v u hok => ?_
    obtain ⟨_, _, heq⟩ := Reply.map_eq_ok.mp hok
    cases heq
    exact .of_eq rfl
  | addSpace offset space =>
    refine portCommand_movesTo h fun v u hok => ?_
    obtain ⟨_, _, heq⟩ := Reply.map_eq_ok.mp hok
    cases heq
    exact .of_eq rfl
  | newDense | newZero | newRom | romLoad | newSparse | sparseAdd => exact .of_eq (hostRun_scan h)
  | size | read | find | peekBit | isAligned | bitsLeft | atLeast | decode | hdrFmt000 | hdrFmt001
  | hdrFmt010 | hdrFmt011 | hdrFmt100 | hdrFmt101 | hdrFmt110 | hdrFmt111 | mov =>
    exact .of_eq (portQuery_scan h)

/-- SCAN_LOAD leaves the scanner unit, or puts its cursor at the start of the new window (R131). -/
theorem exec_scanLoad_scan {s t : State} {window : List Byte} (h : exec (.scanLoad window) s = .next t) :
    t.scan = s.scan ∨ t.scan = ⟨window, 0⟩ := by
  obtain ⟨hrun, _⟩ := portCommand_next h
  rw [(scanLoadTakesTheWindow Config.params s window hrun).1] at h
  cases h
  rw [windowAnswer]
  split
  · exact .inl rfl
  · exact .inr rfl

/-- Settles O50: a cursor moves only over bits that are left, and at the end none is. -/
theorem exhaustedStateIsTerminal : Obligations.ExhaustedStateIsTerminal := by
  refine ⟨fun i s t hin h => ?bounded, fun s hrun hend => ⟨?peekBit, ?nextBit, ?collect, ?scan⟩⟩
  case bounded =>
    by_cases hload : ∃ w, i = .scanLoad w
    · obtain ⟨w, rfl⟩ := hload
      rcases exec_scanLoad_scan h with hscan | hscan
      · rwa [hscan]
      · rw [hscan]
        exact Nat.zero_le _
    · exact (exec_movesTo (not_exists.mp hload) h).pos_le hin
  case peekBit =>
    rw [exec_peekBit hrun, peekBit_exhausted hend.ge]
    rfl
  case nextBit => exact exec_nextBit_exhausted hrun hend.ge
  case collect =>
    intro w t hpos hw
    exact exec_collect_exhausted hrun hw (by omega)
  case scan =>
    intro i t hi h
    exact (exec_movesTo hi h).eq_of_exhausted hend

end Sys2Proof.Machine
end

section
/-! The cursor queries (41_scanner.md R142 to R145). -/

namespace Sys2Proof.Machine

theorem exec_isAligned {s : State} (n : BitVec 2) (h : s.stopped = none) :
    exec (.isAligned n) s = .next (s.respond (.ok (.aligned (s.scan.pos % (8 <<< n.toNat) == 0)))) :=
  portQuery_running h

theorem exec_bitsLeft {s : State} (h : s.stopped = none) :
    exec .bitsLeft s = .next (s.respond (.ok (.count (8 * s.scan.window.length - s.scan.pos)))) :=
  portQuery_running h

theorem exec_atLeast {s : State} (m : Nat) (h : s.stopped = none) :
    exec (.atLeast m) s
      = .next (s.respond (.ok (.enough (decide (m ≤ 8 * s.scan.window.length - s.scan.pos))))) :=
  portQuery_running h

theorem exec_atLeast_eq_false_iff {s : State} {m : Nat} (h : s.stopped = none) :
    exec (.atLeast m) s = .next (s.respond (.ok (.enough false)))
      ↔ 8 * s.scan.window.length - s.scan.pos < m := by
  rw [exec_atLeast m h, ← Nat.not_le]
  by_cases hleft : m ≤ 8 * s.scan.window.length - s.scan.pos <;> simp [hleft, State.respond]

theorem exec_collect_eq_exhausted_iff {s : State} {w : BitVec 7} {t : BitVec 2} (h : s.stopped = none)
    (hw : w.toNat ≤ 8 <<< t.toNat) :
    exec (.collect w t) s = .next (s.respond (.err .exhausted))
      ↔ 8 * s.scan.window.length - s.scan.pos < w.toNat := by
  refine ⟨fun hexec => Nat.lt_of_not_le fun hleft => ?_, exec_collect_exhausted h hw⟩
  rw [exec_collect_fits h hw hleft] at hexec
  have responses := congrArg State.response (Host.Outcome.next.inj hexec)
  cases responses

/-- Settles O51: AT_LEAST answers false, and COLLECT Exhausted, exactly where fewer bits are left. -/
theorem cursorQueries : Obligations.CursorQueries := fun _ n m hrun =>
  ⟨exec_isAligned n hrun, exec_bitsLeft hrun, exec_atLeast m hrun, fun _ _ _ hw =>
    (exec_atLeast_eq_false_iff hrun).trans (exec_collect_eq_exhausted_iff hrun hw).symm⟩

end Sys2Proof.Machine
end

section
/-! The little-endian words of a window (30_encoding.md R74, R80, R86). -/

namespace Sys2Proof.Machine

/-- Word `i` of a window, the low byte first; bytes past the end read 0. Word 0 is the header, and the
immediates follow it (R73, R81). -/
def windowWord (window : List Byte) (i : Nat) : BitVec 16 :=
  headerWord (window.getD (2 * i) 0#8) (window.getD (2 * i + 1) 0#8)

/-- A 16-bit field on a word boundary of the stream is that word. -/
theorem ofNat_field_eq_windowWord (window : List Byte) (i : Nat) :
    BitVec.ofNat 16 (field window (16 * i) 16) = windowWord window i := by
  have low := byte_eq_field window (2 * i)
  have high := byte_eq_field window (2 * i + 1)
  have split_bytes : field window (16 * i) 16 = (windowWord window i).toNat := by
    rw [windowWord, headerWord, BitVec.toNat_append, low, high, Nat.or_comm,
      field_add_eq_or window (16 * i) 8 8, show 8 * (2 * i) = 16 * i by omega,
      show 8 * (2 * i + 1) = 16 * i + 8 by omega]
  rw [split_bytes, BitVec.ofNat_toNat, BitVec.setWidth_eq]

/-- The words of a window's first `n` bytes do not depend on what follows them. -/
theorem windowWord_take_append {window : List Byte} {n i : Nat} (more : List Byte) (hi : 2 * i + 1 < n)
    (hn : n ≤ window.length) : windowWord (window.take n ++ more) i = windowWord window i := by
  have same_byte {j : Nat} (hj : j < n) :
      (window.take n ++ more).getD j 0#8 = window.getD j 0#8 := by
    have is_taken : j < (window.take n).length := by
      rw [List.length_take]
      omega
    rw [List.getD_append _ _ _ _ is_taken, List.getD_eq_getElem _ _ is_taken, List.getElem_take,
      List.getD_eq_getElem]
  rw [windowWord, same_byte (by omega), same_byte hi, windowWord]

theorem windowWord_flatMap_wordBytes (words : List (BitVec 16)) (i : Nat) :
    windowWord (words.flatMap wordBytes) i = words.getD i 0#16 := by
  induction words generalizing i with
  | nil => simp [windowWord, headerWord]
  | cons h rest ih =>
    cases i with
    | zero => exact headerWord_wordBytes h
    | succ i => exact ih i

theorem length_flatMap_wordBytes (words : List (BitVec 16)) :
    (words.flatMap wordBytes).length = 2 * words.length := by
  simp [List.length_flatMap, wordBytes, Nat.mul_comm]

/-- An encoded instruction is its header and its immediates, one word after the other (R86). -/
theorem encodeInsn_eq_flatMap (op : BitVec 4) (out : RegCode) (fmt : BitVec 3) (r1 r2 : RegCode)
    (imms : List Imm) :
    encodeInsn op out fmt r1 r2 imms = (headerOf op out fmt r1 r2 :: imms).flatMap wordBytes :=
  rfl

end Sys2Proof.Machine
end

section
/-! The states of DECODE (42_decoder.md R152 to R160). -/

namespace Sys2Proof.Machine

/-- An operand uses its immediate word only where its source is an immediate (R79). -/
theorem operand_congr {src : OperandSource} {i j : Imm} (r : RegCode) (h : src = .const → i = j) :
    operand src r i = operand src r j := by
  cases src with
  | const => rw [h rfl]
  | raw => rfl
  | ind => rfl

/-- The five fields of a header word (30_encoding.md R74). -/
def headerFields (h : BitVec 16) : Header := ⟨hdrOp h, hdrOut h, hdrFmt h, hdrR1 h, hdrR2 h⟩

theorem headerFields_headerOf (op : BitVec 4) (out : RegCode) (fmt : BitVec 3) (r1 r2 : RegCode) :
    headerFields (headerOf op out fmt r1 r2) = ⟨op, out, fmt, r1, r2⟩ := by
  simp only [headerFields, hdrOp_headerOf, hdrOut_headerOf, hdrFmt_headerOf, hdrR1_headerOf,
    hdrR2_headerOf]

/-- The instruction of a header and two immediate words. A word whose source is no immediate plays no part
(`instructionOf_congr`). -/
def instructionOf (p : Params) (tag : Opcode) (h : Header) (imm1 imm2 : Imm) : DecodedInstruction :=
  { opcode := tag, out := reg h.out, fmt := h.fmt
    op1 := operand (p.formatTable h.fmt).1 h.r1 imm1
    op2 := operand (p.formatTable h.fmt).2 h.r2 imm2
    length := 2 + 2 * nimm p h.fmt }

theorem instructionOf_congr {p : Params} {tag : Opcode} {h : Header} {i1 i2 j1 j2 : Imm}
    (h1 : (p.formatTable h.fmt).1 = .const → i1 = j1)
    (h2 : (p.formatTable h.fmt).2 = .const → i2 = j2) :
    instructionOf p tag h i1 i2 = instructionOf p tag h j1 j2 := by
  rw [instructionOf, operand_congr _ h1, operand_congr _ h2, instructionOf]

/-- The header a window begins with has five fields in its first word, and 16 bits are taken (R153). -/
theorem collectHeader_eq {window : List Byte} (h : 2 ≤ window.length) :
    collectHeader ⟨window, 0⟩ = .ok (headerFields (windowWord window 0), ⟨window, 16⟩) := by
  match window, h with
  | b0 :: b1 :: rest, _ => exact headerFieldsOfTheStream b0 b1 rest

/-- A window of no byte ends in the first field, and one of a single byte in the third (R154). -/
theorem collectHeader_short {window : List Byte} (h : window.length < 2) :
    collectHeader ⟨window, 0⟩ = .err .exhausted := by
  match window, h with
  | [], _ => rfl
  | [_], _ => rfl

/-- With its bits left, an immediate state takes the word that the operand needs, if it needs one (R156,
R157). -/
theorem collectImm_fits {src : OperandSource} {window : List Byte} {i : Nat}
    (h : 2 * (i + immCount src) ≤ window.length) :
    ∃ imm, collectImm src ⟨window, 16 * i⟩ = .ok (imm, ⟨window, 16 * (i + immCount src)⟩)
      ∧ ∀ r, operand src r imm = operand src r (windowWord window i) := by
  cases src with
  | const =>
    have enough : 16 ≤ (⟨window, 16 * i⟩ : Cursor).left := by
      simp only [immCount, Cursor.left, Cursor.bits] at h ⊢
      omega
    refine ⟨windowWord window i, ?_, fun _ => rfl⟩
    rw [collectImm, collect_fits (Nat.le_refl 16) enough, Reply.map_ok]
    simp only [ofNat_field_eq_windowWord, immCount, Nat.mul_add, Nat.mul_one]
  | raw => exact ⟨0#16, rfl, fun _ => rfl⟩
  | ind => exact ⟨0#16, rfl, fun _ => rfl⟩

theorem collectImm_short {src : OperandSource} {window : List Byte} {i : Nat}
    (hi : 2 * i ≤ window.length) (h : window.length < 2 * (i + immCount src)) :
    collectImm src ⟨window, 16 * i⟩ = .err .exhausted := by
  cases src with
  | const =>
    have few : (⟨window, 16 * i⟩ : Cursor).left < 16 := by
      simp only [immCount, Cursor.left, Cursor.bits] at h ⊢
      omega
    rw [collectImm, collect_short (Nat.le_refl 16) few, Reply.map_err]
  | raw => exact absurd hi (Nat.not_le.mpr h)
  | ind => exact absurd hi (Nat.not_le.mpr h)

/-- The word that holds the second immediate: the first one takes a word only where it is an immediate
(R157). -/
def secondImmIndex (p : Params) (fmt : BitVec 3) : Nat := 1 + immCount (p.formatTable fmt).1

theorem secondImmIndex_add_immCount (p : Params) (fmt : BitVec 3) :
    secondImmIndex p fmt + immCount (p.formatTable fmt).2 = 1 + nimm p fmt :=
  Nat.add_assoc _ _ _

theorem immCount_eq_one {src : OperandSource} (h : src = .const) : immCount src = 1 := by rw [h]; rfl

/-- After the header, the two immediate states take `nimm` words, and the cursor ends on a word boundary, so
the final assertion never fails (R158, R159). -/
theorem collectOperands_eq {p : Params} {tag : Opcode} {h : Header} {window : List Byte}
    (hheader : 2 ≤ window.length) :
    collectOperands p tag h ⟨window, 16⟩ =
      if window.length < 2 + 2 * nimm p h.fmt then .err .exhausted
      else .ok (instructionOf p tag h (windowWord window 1)
        (windowWord window (secondImmIndex p h.fmt))) := by
  have ends := secondImmIndex_add_immCount p h.fmt
  rw [collectOperands, show (⟨window, 16⟩ : Cursor) = ⟨window, 16 * 1⟩ from rfl]
  by_cases hfirst : window.length < 2 * secondImmIndex p h.fmt
  · rw [collectImm_short hheader hfirst, Reply.bind_err, if_pos (by omega)]
  · obtain ⟨imm1, take1, op1⟩ := collectImm_fits (Nat.le_of_not_lt hfirst)
    rw [take1, Reply.bind_ok]
    change (collectImm _ ⟨window, 16 * secondImmIndex p h.fmt⟩).bind _ = _
    split_ifs with hshort
    · rw [collectImm_short (by omega) (by omega), Reply.bind_err]
    · obtain ⟨imm2, take2, op2⟩ := collectImm_fits (src := (p.formatTable h.fmt).2) (window := window)
        (i := secondImmIndex p h.fmt) (by omega)
      have aligned : 16 * (1 + nimm p h.fmt) % 16 = 0 := Nat.mul_mod_right _ _
      have bytes : 16 * (1 + nimm p h.fmt) / 8 = 2 + 2 * nimm p h.fmt := by omega
      rw [take2, ends, Reply.bind_ok]
      simp only [aligned, bytes, op1, op2, instructionOf, ne_eq, not_true_eq_false, if_false]

/-- The instruction of opcode `tag` that a window begins with. -/
def instructionAt (p : Params) (tag : Opcode) (window : List Byte) : DecodedInstruction :=
  instructionOf p tag (headerFields (windowWord window 0)) (windowWord window 1)
    (windowWord window (secondImmIndex p (hdrFmt (windowWord window 0))))

/-- What DECODE answers for a window that is not too long, in the order of its checks (R152, R154). Neither
assertion of alignment ever fails (R159). -/
theorem decodeWindow_eq {p : Params} {window : List Byte} (h : windowTooLong p window = false) :
    decodeWindow p window =
      if window.length < 2 then .err .exhausted
      else match p.opcodeMap (hdrOp (windowWord window 0)) with
        | none => Reply.err .invalidOpcode
        | some tag =>
          if window.length < 2 + 2 * nimm p (hdrFmt (windowWord window 0)) then .err .exhausted
          else .ok (instructionAt p tag window) := by
  rw [decodeWindow, if_neg (Bool.eq_false_iff.mp h)]
  by_cases hshort : window.length < 2
  · rw [if_pos hshort, collectHeader_short hshort, Reply.bind_err]
  · have hheader := Nat.le_of_not_lt hshort
    rw [if_neg hshort, collectHeader_eq hheader, Reply.bind_ok]
    simp only [headerFields, Nat.reduceMod, ne_eq, not_true_eq_false, if_false]
    cases p.opcodeMap (hdrOp (windowWord window 0)) with
    | none => rfl
    | some tag => exact collectOperands_eq hheader

/-- DECODE answers an instruction exactly for a window that is not too long, has a valid opcode, and holds
the whole instruction. -/
theorem decodeWindow_eq_ok_iff {p : Params} {window : List Byte} {d : DecodedInstruction} :
    decodeWindow p window = .ok d ↔
      windowTooLong p window = false
        ∧ 2 + 2 * nimm p (hdrFmt (windowWord window 0)) ≤ window.length
        ∧ ∃ tag, p.opcodeMap (hdrOp (windowWord window 0)) = some tag
          ∧ d = instructionAt p tag window := by
  cases hlong : windowTooLong p window with
  | true => simp [decodeWindow, hlong]
  | false =>
    rw [decodeWindow_eq hlong]
    cases p.opcodeMap (hdrOp (windowWord window 0)) with
    | none => split_ifs <;> simp
    | some tag =>
      split_ifs with hshort hwhole
      · exact iff_of_false nofun fun ⟨_, hfits, _⟩ => by omega
      · exact iff_of_false nofun fun ⟨_, hfits, _⟩ => by omega
      · simp [Nat.le_of_not_lt hwhole, eq_comm]

end Sys2Proof.Machine
end

section
/-! DECODE as a command: its answers and its errors (42_decoder.md R154, R163). -/

namespace Sys2Proof.Machine

theorem exec_decode (window : List Byte) (s : State) :
    exec (.decode window) s = decodeCommand Config.params window s := rfl

/-- DECODE only delivers what it answers for the window (R163). -/
theorem decodeCommand_running {p : Params} {s : State} (window : List Byte) (h : s.stopped = none) :
    decodeCommand p window s
      = .next (deliver s (((decodeWindow p window).map .insn).map fun v => (v, s))) :=
  portQuery_running h

/-- Where DECODE answers an instruction once the window is accepted, the window's refusal is the one other
outcome of the command. -/
theorem decodeCommand_eq_windowAnswer {p : Params} {s : State} {window : List Byte}
    {d : DecodedInstruction} (hrun : s.stopped = none)
    (h : windowTooLong p window = false → decodeWindow p window = .ok d) :
    decodeCommand p window s = .next (windowAnswer p window s (s.respond (.ok (.insn d)))) := by
  rw [decodeCommand_running window hrun, windowAnswer]
  split_ifs with hlong
  · rw [decodeWindow, if_pos hlong]
    rfl
  · rw [h (Bool.eq_false_iff.mpr hlong)]
    rfl

/-- Settles O54: the checks of `decodeWindow_eq`, one case each. -/
theorem decodeErrorsInOrder : Obligations.DecodeErrorsInOrder := by
  intro p s window hrun hlong
  refine ⟨?_, exec_decode window s⟩
  have answer := decodeWindow_eq hlong
  match window with
  | [] | [_] =>
    rw [decodeCommand_running _ hrun, answer]
    rfl
  | b0 :: b1 :: trail =>
    rw [if_neg (by simp), show windowWord (b0 :: b1 :: trail) 0 = headerWord b0 b1 from rfl] at answer
    simp only [decodeCommand_running _ hrun, answer]
    cases p.opcodeMap (hdrOp (headerWord b0 b1)) with
    | none => rfl
    | some tag =>
      simp only [List.length_cons]
      by_cases hshort : trail.length < 2 * nimm p (hdrFmt (headerWord b0 b1))
      · rw [if_pos hshort, if_pos (by omega)]
        rfl
      · rw [if_neg hshort, if_neg (by omega)]
        exact ⟨_, rfl⟩

end Sys2Proof.Machine
end

section
/-! The bytes that DECODE reads (42_decoder.md R160, R161). -/

namespace Sys2Proof.Machine

/-- The instruction that a window begins with is a function of its own bytes. -/
theorem instructionAt_take_append {p : Params} {tag : Opcode} {window : List Byte} {n : Nat}
    (more : List Byte) (hlen : n = 2 + 2 * nimm p (hdrFmt (windowWord window 0))) (hn : n ≤ window.length) :
    instructionAt p tag (window.take n ++ more) = instructionAt p tag window := by
  have ends := secondImmIndex_add_immCount p (hdrFmt (windowWord window 0))
  rw [instructionAt, windowWord_take_append more (by omega) hn, instructionAt]
  refine instructionOf_congr (fun hsrc => ?_) (fun hsrc => ?_)
  · have one : immCount (p.formatTable (hdrFmt (windowWord window 0))).1 = 1 := immCount_eq_one hsrc
    rw [secondImmIndex, one] at ends
    exact windowWord_take_append more (by omega) hn
  · have one : immCount (p.formatTable (hdrFmt (windowWord window 0))).2 = 1 := immCount_eq_one hsrc
    exact windowWord_take_append more (by omega) hn

/-- Settles O55: the length is that of the format, and the words it spans are all that DECODE reads. -/
theorem decodedLengthAndExcessBytes : Obligations.DecodedLengthAndExcessBytes := by
  intro p window d h
  obtain ⟨_, hwhole, tag, hmap, rfl⟩ := decodeWindow_eq_ok_iff.mp h
  generalize hn : (instructionAt p tag window).length = n
  have length_eq : n = 2 + 2 * nimm p (hdrFmt (windowWord window 0)) := hn.symm
  have le_length : n ≤ window.length := length_eq.trans_le hwhole
  refine ⟨length_eq, ?_, le_length, fun more hlong => ?_⟩
  · have few := nimm_le_two p (hdrFmt (windowWord window 0))
    simp only [List.mem_cons, List.not_mem_nil, or_false]
    omega
  · have same_header : windowWord (window.take n ++ more) 0 = windowWord window 0 :=
      windowWord_take_append more (by omega) le_length
    refine decodeWindow_eq_ok_iff.mpr ⟨hlong, ?_, tag, ?_, ?_⟩
    · rw [same_header, List.length_append, List.length_take]
      omega
    · rw [same_header, hmap]
    · exact (instructionAt_take_append more length_eq le_length).symm

end Sys2Proof.Machine
end

section
/-! DECODE after encoding (42_decoder.md R164). -/

namespace Sys2Proof.Machine

/-- A format's second immediate is the last of its immediate words (R157). -/
theorem getD_secondImmIndex {p : Params} {fmt : BitVec 3} {h : BitVec 16} {imms : List Imm}
    (hlen : imms.length = nimm p fmt) (hsrc : (p.formatTable fmt).2 = .const) :
    (h :: imms).getD (secondImmIndex p fmt) 0#16 = imms.getLastD 0#16 := by
  have last : immCount (p.formatTable fmt).1 = imms.length - 1 := by
    rw [hlen, nimm, immCount_eq_one hsrc, Nat.add_sub_cancel]
  rw [secondImmIndex, last, Nat.add_comm, List.getD_cons_succ, List.getD_eq_getElem?_getD,
    ← List.getLast?_eq_getElem?, List.getLastD_eq_getLast?]

/-- R164 at the level of the window: the words of the encoding are the ones DECODE takes. -/
theorem decodeWindow_encodeInsn {p : Params} {op : BitVec 4} {tag : Opcode} {fmt : BitVec 3}
    {imms : List Imm} (out r1 r2 : RegCode) (hmap : p.opcodeMap op = some tag)
    (hlen : imms.length = nimm p fmt)
    (hlong : windowTooLong p (encodeInsn op out fmt r1 r2 imms) = false) :
    decodeWindow p (encodeInsn op out fmt r1 r2 imms) = .ok
      { opcode := tag, out := reg out, fmt := fmt
        op1 := operand (p.formatTable fmt).1 r1 (imms.headD 0#16)
        op2 := operand (p.formatTable fmt).2 r2 (imms.getLastD 0#16)
        length := 2 + 2 * nimm p fmt } := by
  have word (i : Nat) := windowWord_flatMap_wordBytes (headerOf op out fmt r1 r2 :: imms) i
  have header := word 0
  rw [List.getD_cons_zero] at header
  rw [encodeInsn_eq_flatMap] at hlong ⊢
  refine decodeWindow_eq_ok_iff.mpr ⟨hlong, ?_, tag, ?_, ?_⟩
  · rw [header, hdrFmt_headerOf, length_flatMap_wordBytes, List.length_cons]
    omega
  · rw [header, hdrOp_headerOf, hmap]
  · have first : (headerOf op out fmt r1 r2 :: imms).getD 1 0#16 = imms.headD 0#16 := by
      cases imms <;> rfl
    rw [instructionAt, header, word, word, first, headerFields_headerOf, hdrFmt_headerOf]
    exact instructionOf_congr (h := ⟨op, out, fmt, r1, r2⟩) (fun _ => rfl)
      fun hsrc => (getD_secondImmIndex hlen hsrc).symm

/-- Settles O53: the command answers the instruction of the window, or refuses the window. -/
theorem decodeOfEncodeRoundTrips : Obligations.DecodeOfEncodeRoundTrips :=
  fun _ _ _ _ out _ r1 r2 _ hrun =>
    ⟨fun hmap hlen => decodeCommand_eq_windowAnswer hrun (decodeWindow_encodeInsn out r1 r2 hmap hlen),
      fun hmap hlen => decodeCommand_eq_windowAnswer hrun (decodeWindow_encodeInsn out r1 r2 hmap hlen)⟩

end Sys2Proof.Machine
end

section
/-! The codes of the outcomes (60_exceptions.md R167). -/

namespace Sys2Proof.Machine

theorem errStatus_not_mem_unused (k : ErrKind) : errStatus k ∉ [9, 10, 11, 12, 13] := by
  cases k <;> decide

/-- The codes between the errors' and `REFUSED`'s are no outcome's. -/
theorem statusOf_not_mem_unused (r : Response) : statusOf r ∉ [9, 10, 11, 12, 13] := by
  cases r with
  | ok v => show (0 : BitVec 4) ∉ _; decide
  | err k => exact errStatus_not_mem_unused k
  | fault d => show (15 : BitVec 4) ∉ _; decide
  | refused q => show (14 : BitVec 4) ∉ _; decide

/-- Settles O14: each entry of the table by evaluation, the unused codes by the kind of the outcome. -/
theorem statusCodes : Obligations.StatusCodes :=
  ⟨fun _ => rfl, rfl, fun _ => rfl, fun _ => rfl, rfl, rfl, fun _ => rfl, fun _ => rfl,
    statusOf_not_mem_unused⟩

end Sys2Proof.Machine
end

section
/-! What an `ERR` and a query leave of the state (60_exceptions.md R170). -/

namespace Sys2Proof.Machine

/-- How an instruction runs, by the part of the state it may write: as a query, as a port command, or off
the block as a constructor. -/
theorem exec_eq_by_writes (i : Instr) (s : State) :
    (writes i = .nothing ∧ ∃ r, exec i s = portQuery s r)
      ∨ ((writes i = .root ∨ writes i = .scan) ∧ ∃ r, exec i s = portCommand s r)
      ∨ (writes i = .host ∧ ∃ r, exec i s = hostRun s r) := by
  cases i with
  | size | read | find | peekBit | isAligned | bitsLeft | atLeast | decode | hdrFmt000 | hdrFmt001
  | hdrFmt010 | hdrFmt011 | hdrFmt100 | hdrFmt101 | hdrFmt110 | hdrFmt111 | mov =>
    exact .inl ⟨rfl, _, rfl⟩
  | write | addSpace => exact .inr (.inl ⟨.inl rfl, _, rfl⟩)
  | scanLoad | nextBit | collect | collectType => exact .inr (.inl ⟨.inr rfl, _, rfl⟩)
  | newDense | newZero | newRom | romLoad | newSparse | sparseAdd => exact .inr (.inr ⟨rfl, _, rfl⟩)

/-- An instruction that writes nothing runs as a query. -/
theorem exec_eq_portQuery {i : Instr} (s : State) (hi : writes i = .nothing) :
    ∃ r, exec i s = portQuery s r := by
  rcases exec_eq_by_writes i s with ⟨_, hquery⟩ | ⟨hroot | hscan, _⟩ | ⟨hhost, _⟩
  · exact hquery
  · cases hi.symm.trans hroot
  · cases hi.symm.trans hscan
  · cases hi.symm.trans hhost

/-- The response of a delivery is an error only where the outcome is. -/
theorem deliver_response_eq_err {s : State} {r : Reply (Value × State)} {k : ErrKind}
    (h : (deliver s r).response = some (.err k)) : r = .err k := by
  cases r with
  | err k' => cases h; rfl
  | ok _ | fault _ | refused _ => cases h

/-- The value of a delivery's response is that of the outcome. -/
theorem deliver_response_eq_ok {s : State} {r : Reply (Value × State)} {v : Value}
    (h : (deliver s r).response = some (.ok v)) : ∃ u, r = .ok (v, u) := by
  cases r with
  | ok a => cases h; exact ⟨a.2, rfl⟩
  | err _ | fault _ | refused _ => cases h

theorem portCommand_next_err {s t : State} {r : Reply (Value × State)} {k : ErrKind}
    (h : portCommand s r = .next t) (hk : t.response = some (.err k)) : t = s.respond (.err k) := by
  obtain ⟨_, rfl⟩ := portCommand_next h
  rw [deliver_response_eq_err hk, deliver_err]

theorem hostRun_next_err {s t : State} {r : Reply Value} {k : ErrKind}
    (h : hostRun s r = .next t) (hk : t.response = some (.err k)) : t = s.respond (.err k) := by
  rcases hostRun_next h with ⟨_, rfl⟩ | ⟨_, rfl⟩
  · rw [deliver_response_eq_err hk, deliver_err]
  · rw [Option.some.inj hk]

theorem portQuery_next_ok {s t : State} {r : Reply Value} {v : Value}
    (h : portQuery s r = .next t) (hv : t.response = some (.ok v)) : t = s.respond (.ok v) := by
  obtain ⟨_, rfl⟩ := portCommand_next h
  obtain ⟨_, hout⟩ := deliver_response_eq_ok hv
  obtain ⟨_, _, hpair⟩ := Reply.map_eq_ok.mp hout
  cases hpair
  rw [hout, deliver_ok]

/-- Settles O9: an `ERR` by how the instruction runs, an `OK` because such an instruction is a query. -/
theorem errorsAndQueriesChangeNothing : Obligations.ErrorsAndQueriesChangeNothing := by
  refine ⟨fun i s t k h hk => ?error, fun i s t v hi h hv => ?query⟩
  case error =>
    rcases exec_eq_by_writes i s with ⟨_, r, hrun⟩ | ⟨_, r, hrun⟩ | ⟨_, r, hrun⟩
    · exact portCommand_next_err (hrun.symm.trans h) hk
    · exact portCommand_next_err (hrun.symm.trans h) hk
    · exact hostRun_next_err (hrun.symm.trans h) hk
  case query =>
    obtain ⟨r, hrun⟩ := exec_eq_portQuery s hi
    exact portQuery_next_ok (hrun.symm.trans h) hv

end Sys2Proof.Machine
end

section
/-! The marks `stopped` and `refused`: a reset clears them, and no other step does
(70_reset_and_hazards.md R185). -/

namespace Sys2Proof.Machine

/-- The marks that are set in `s` are set in `t`, the stop with the same defect. -/
def State.KeepsMarks (s t : State) : Prop :=
  (∀ d, s.stopped = some d → t.stopped = some d) ∧ (s.refused = true → t.refused = true)

/-- The `OK` result of a command, if it is one, has the `refused` mark as it was. -/
def OkKeepsRefused (s : State) (r : Reply (Value × State)) : Prop :=
  ∀ v u, r = .ok (v, u) → u.refused = s.refused

/-- A running block has no stop to keep. -/
theorem State.KeepsMarks.of_running {s t : State} (hrun : s.stopped = none)
    (href : s.refused = true → t.refused = true) : s.KeepsMarks t :=
  ⟨fun _ hd => (nomatch hrun.symm.trans hd), href⟩

theorem okKeepsRefused_refused (s : State) (q : RefusedReason) : OkKeepsRefused s (.refused q) :=
  fun _ _ hok => nomatch hok

theorem okKeepsRefused_map {α : Type} {s : State} {r : Reply α} {f : α → Value × State}
    (hf : ∀ a, (f a).2.refused = s.refused) : OkKeepsRefused s (r.map f) := by
  intro v u hok
  obtain ⟨a, _, heq⟩ := Reply.map_eq_ok.mp hok
  rw [← hf a, heq]

/-- Of the four outcomes only an `OK` gives a state of its own; no other clears the mark (R170 to R173). -/
theorem deliver_refused_of_refused {s : State} {r : Reply (Value × State)} (hok : OkKeepsRefused s r)
    (href : s.refused = true) : (deliver s r).refused = true := by
  cases r with
  | ok a => exact (hok a.1 a.2 rfl).trans href
  | err k => exact href
  | fault d => exact href
  | refused q => rfl

/-- A port command runs on a block that is not stopped, and keeps the `refused` mark if its `OK` does. -/
theorem portCommand_keepsMarks {s t : State} {r : Reply (Value × State)} (hok : OkKeepsRefused s r)
    (h : portCommand s r = .next t) : s.KeepsMarks t := by
  obtain ⟨hrun, rfl⟩ := portCommand_next h
  exact .of_running hrun (deliver_refused_of_refused hok)

theorem portQuery_keepsMarks {s t : State} {r : Reply Value} (h : portQuery s r = .next t) :
    s.KeepsMarks t :=
  portCommand_keepsMarks (okKeepsRefused_map fun _ => rfl) h

/-- A constructor's run has a next state on a stopped block too, and there writes its response alone. -/
theorem hostRun_keepsMarks {s t : State} {r : Reply Value} (h : hostRun s r = .next t) :
    s.KeepsMarks t := by
  rcases hostRun_next h with ⟨hrun, rfl⟩ | ⟨_, rfl⟩
  · exact .of_running hrun (deliver_refused_of_refused (okKeepsRefused_map fun _ => rfl))
  · exact ⟨fun _ hd => hd, id⟩

theorem writeRoot_okKeepsRefused (p : Params) (addr : Nat) (data : List Byte) (s : State) :
    OkKeepsRefused s (writeRoot p addr data s) :=
  okKeepsRefused_map fun _ => rfl

theorem addToRoot_okKeepsRefused (p : Params) (off : Nat) (sp : Space) (s : State) :
    OkKeepsRefused s (addToRoot p off sp s) :=
  okKeepsRefused_map fun _ => rfl

theorem loadWindow_okKeepsRefused (p : Params) (window : List Byte) (s : State) :
    OkKeepsRefused s (loadWindow p window s) := by
  intro v u hok
  rw [loadWindow] at hok
  split at hok
  · cases hok
  · cases hok
    rfl

theorem collectScan_okKeepsRefused (w target : Nat) (s : State) :
    OkKeepsRefused s (collectScan w target s) :=
  okKeepsRefused_map fun _ => rfl

/-- No instruction clears a mark: it is a query, a constructor, or one of the six commands that write the
root or the scanner unit. -/
theorem exec_keepsMarks {i : Instr} {s t : State} (h : exec i s = .next t) : s.KeepsMarks t := by
  cases i with
  | write addr data => exact portCommand_keepsMarks (writeRoot_okKeepsRefused _ addr data s) h
  | addSpace off sp => exact portCommand_keepsMarks (addToRoot_okKeepsRefused _ off sp s) h
  | scanLoad window => exact portCommand_keepsMarks (loadWindow_okKeepsRefused _ window s) h
  | nextBit => exact portCommand_keepsMarks (okKeepsRefused_map fun _ => rfl) h
  | collect w t => exact portCommand_keepsMarks (collectScan_okKeepsRefused _ _ s) h
  | collectType t => exact portCommand_keepsMarks (collectScan_okKeepsRefused _ _ s) h
  | newDense | newZero | newRom | romLoad | newSparse | sparseAdd => exact hostRun_keepsMarks h
  | size | read | find | peekBit | isAligned | bitsLeft | atLeast | decode | hdrFmt000 | hdrFmt001
  | hdrFmt010 | hdrFmt011 | hdrFmt100 | hdrFmt101 | hdrFmt110 | hdrFmt111 | mov =>
    exact portQuery_keepsMarks h

/-- A request that is no instruction is refused, or is DECODE of its window (R71, R153). -/
theorem rejectRequest_keepsMarks {r : Request} {s t : State} (h : rejectRequest r s = .next t) :
    s.KeepsMarks t := by
  cases r with
  | port _ => exact portCommand_keepsMarks (okKeepsRefused_refused s _) h
  | host _ => exact portCommand_keepsMarks (okKeepsRefused_refused s _) h
  | insn window => exact portQuery_keepsMarks h

theorem idle_keepsMarks {s t : State} (h : idle s = .next t) : s.KeepsMarks t := by
  rw [idle] at h
  split at h
  · cases h
  · cases h
    exact ⟨fun _ hd => hd, id⟩

/-- A step that takes a reset answers the state of R42 with the inputs behind it (log entry 15). -/
theorem step_reset {s : State} {rest : List Input} (h : s.inbox = .reset :: rest) :
    step s = .next (State.reset.setInbox rest) := by
  rw [step, h]
  rfl

/-- A step that takes a request is the run of its instruction or its rejection. -/
theorem step_request {s : State} {r : Request} {rest : List Input} (h : s.inbox = .request r :: rest) :
    (∃ i, step s = exec i (s.setInbox rest)) ∨ step s = rejectRequest r (s.setInbox rest) := by
  rw [step, h]
  cases hdec : decode r with
  | ok i => exact .inl ⟨i, by simp only [hdec]⟩
  | error e => exact .inr (by simp only [hdec])

theorem step_idle {s : State} (h : s.inbox = []) : step s = idle s := by
  rw [step, h]

/-- No step but one that takes a reset clears a mark (R185). -/
theorem step_keepsMarks {s t : State} (h : step s = .next t) (hreset : s.inbox.head? ≠ some .reset) :
    s.KeepsMarks t := by
  cases hin : s.inbox with
  | nil => exact idle_keepsMarks ((step_idle hin).symm.trans h)
  | cons input rest =>
    cases input with
    | reset => exact absurd (by rw [hin, List.head?_cons]) hreset
    | request r =>
      show (s.setInbox rest).KeepsMarks t
      rcases step_request hin with ⟨_, hexec⟩ | hreject
      · exact exec_keepsMarks (hexec.symm.trans h)
      · exact rejectRequest_keepsMarks (hreject.symm.trans h)

/-- Settles O2: a reset answers the state of R42, and every other step keeps the marks. -/
theorem resetAloneClearsTheMarks : Obligations.ResetAloneClearsTheMarks :=
  ⟨fun _ _ hin => ⟨_, step_reset hin, rfl, rfl, rfl, rfl⟩, fun _ _ h hreset => step_keepsMarks h hreset⟩

end Sys2Proof.Machine
end

section
/-! The toy rows and the round trip of the encoding (30_encoding.md R69 to R75, R84, R86). -/

namespace Sys2Proof

/-- The toy row of a format code, for a header whose opcode is not 1 (R88). -/
def formatRow (fmt : BitVec 3) (op : BitVec 4) (out r1 r2 : RegCode) (trail : List Byte) : Instr :=
  match fmt.toNat with
  | 0 => .hdrFmt000 op out r1 r2 trail
  | 1 => .hdrFmt001 op out r1 r2 trail
  | 2 => .hdrFmt010 op out r1 r2 trail
  | 3 => .hdrFmt011 op out r1 r2 trail
  | 4 => .hdrFmt100 op out r1 r2 trail
  | 5 => .hdrFmt101 op out r1 r2 trail
  | 6 => .hdrFmt110 op out r1 r2 trail
  | _ => .hdrFmt111 op out r1 r2 trail

theorem decodeHeaderRow_eq (h : BitVec 16) (trail : List Byte) :
    decodeHeaderRow h trail =
      if hdrOp h = 1#4 then .mov (hdrOut h) (hdrFmt h) (hdrR1 h) (hdrR2 h) trail
      else formatRow (hdrFmt h) (hdrOp h) (hdrOut h) (hdrR1 h) (hdrR2 h) trail := rfl

theorem mem_formatCodes : ∀ fmt : BitVec 3, fmt ∈ formatCodes := by decide

/-- What holds of the eight format codes holds of every one. -/
theorem forall_format {P : BitVec 3 → Prop} (h : ∀ fmt ∈ formatCodes, P fmt) (fmt : BitVec 3) : P fmt :=
  h fmt (mem_formatCodes fmt)

theorem encode_formatRow (fmt : BitVec 3) (op : BitVec 4) (out r1 r2 : RegCode) (trail : List Byte) :
    encode (formatRow fmt op out r1 r2 trail) = .insn (headerBytes op out fmt r1 r2 ++ trail) := by
  revert fmt
  refine forall_format ?_
  simp only [formatCodes, List.forall_mem_cons]
  exact ⟨rfl, rfl, rfl, rfl, rfl, rfl, rfl, rfl, nofun⟩

theorem formatRow_wf (p : Params) (fmt : BitVec 3) (op : BitVec 4) (out r1 r2 : RegCode)
    (trail : List Byte) : (formatRow fmt op out r1 r2 trail).wf p = (op != 1#4) := by
  revert fmt
  refine forall_format ?_
  simp only [formatCodes, List.forall_mem_cons]
  exact ⟨rfl, rfl, rfl, rfl, rfl, rfl, rfl, rfl, nofun⟩

/-- A header is named by its format row only where its opcode is not 1 (log entry 10). -/
theorem decodeHeaderRow_wf (p : Params) (h : BitVec 16) (trail : List Byte) :
    (decodeHeaderRow h trail).wf p = true := by
  rw [decodeHeaderRow_eq]
  split
  next => rfl
  next hop => rw [formatRow_wf, bne_iff_ne]; exact hop

theorem decode_headerBytes_of_ne {op : BitVec 4} (hop : (op != 1#4) = true) (out : RegCode)
    (fmt : BitVec 3) (r1 r2 : RegCode) (trail : List Byte) :
    decode (.insn (headerBytes op out fmt r1 r2 ++ trail)) = .ok (formatRow fmt op out r1 r2 trail) := by
  rw [decode, decodeInsn_headerBytes, decodeHeaderRow_eq, hdrOp_headerOf, if_neg (bne_iff_ne.mp hop)]
  simp only [hdrOut_headerOf, hdrFmt_headerOf, hdrR1_headerOf, hdrR2_headerOf]

theorem decode_headerBytes_mov (out : RegCode) (fmt : BitVec 3) (r1 r2 : RegCode) (trail : List Byte) :
    decode (.insn (headerBytes 1#4 out fmt r1 r2 ++ trail)) = .ok (.mov out fmt r1 r2 trail) := by
  rw [decode, decodeInsn_headerBytes, decodeHeaderRow_eq, hdrOp_headerOf, if_pos rfl]
  simp only [hdrOut_headerOf, hdrFmt_headerOf, hdrR1_headerOf, hdrR2_headerOf]

/-- Settles O59: a command's record carries its code and its lanes, and a toy row's header its fields. -/
theorem decodeOfEncodeForEveryInstruction : Obligations.DecodeOfEncodeForEveryInstruction := by
  intro i hwf
  cases i with
  | size | read | write | find | addSpace | scanLoad | peekBit | nextBit | collect | collectType
  | isAligned | bitsLeft | atLeast | decode | newDense | newZero | newRom | romLoad | newSparse
  | sparseAdd => rfl
  | hdrFmt000 op out r1 r2 trail | hdrFmt001 op out r1 r2 trail | hdrFmt010 op out r1 r2 trail
  | hdrFmt011 op out r1 r2 trail | hdrFmt100 op out r1 r2 trail | hdrFmt101 op out r1 r2 trail
  | hdrFmt110 op out r1 r2 trail | hdrFmt111 op out r1 r2 trail =>
    exact decode_headerBytes_of_ne hwf out _ r1 r2 trail
  | mov out fmt r1 r2 trail => exact decode_headerBytes_mov out fmt r1 r2 trail

/-- The five fields of a header are all its bits (R74). -/
theorem headerOf_fields (h : BitVec 16) :
    headerOf (hdrOp h) (hdrOut h) (hdrFmt h) (hdrR1 h) (hdrR2 h) = h := by
  apply BitVec.eq_of_getLsbD_eq
  intro i hi
  simp only [headerOf, hdrOp, hdrOut, hdrFmt, hdrR1, hdrR2, BitVec.getLsbD_or,
    BitVec.getLsbD_shiftLeft, BitVec.getLsbD_setWidth, BitVec.getLsbD_extractLsb']
  interval_cases i <;> simp

theorem wordBytes_headerWord (b0 b1 : Byte) : wordBytes (headerWord b0 b1) = [b0, b1] := by
  have low : (headerWord b0 b1).extractLsb' 0 8 = b0 := by
    rw [headerWord, BitVec.extractLsb'_append_eq_right]
  have high : (headerWord b0 b1).extractLsb' 8 8 = b1 := by
    rw [headerWord, BitVec.extractLsb'_append_eq_left]
  rw [wordBytes, low, high]

/-- The row of a header encodes to the header's bits and what follows them. -/
theorem encode_decodeHeaderRow (h : BitVec 16) (trail : List Byte) :
    encode (decodeHeaderRow h trail) = .insn (wordBytes h ++ trail) := by
  rw [decodeHeaderRow_eq]
  split
  next hop =>
    rw [encode, ← hop, headerBytes, headerOf_fields]
  next => rw [encode_formatRow, headerBytes, headerOf_fields]

/-- Settles O60: the row of the window's first two bytes, which keeps every bit of them. -/
theorem everyHeaderHasItsRow : Obligations.EveryHeaderHasItsRow := by
  intro window hlen
  match window, hlen with
  | b0 :: b1 :: trail, _ =>
    refine ⟨decodeHeaderRow (headerWord b0 b1) trail, rfl, decodeHeaderRow_wf _ _ _, ?_⟩
    rw [encode_decodeHeaderRow, wordBytes_headerWord]
    rfl

/-- A command reads only lanes of its record (R69, R70). -/
theorem decodeRecord_wf {p : Params} {r : Record} {i : Instr} (hr : r.wf p = true)
    (h : decodeRecord r = .ok i) : i.wf p = true := by
  simp only [Record.wf, Bool.and_eq_true] at hr
  obtain ⟨⟨⟨⟨haddrA, haddrB⟩, hspace⟩, hrom⟩, hparent⟩ := hr
  rw [decodeRecord] at h
  split at h <;> cases h <;> simp only [Instr.wf, haddrA, haddrB, hspace, hrom, hparent, Bool.and_self]

/-- Settles O18: a record's lanes can be supplied, and a toy window has its row. -/
theorem suppliedRequestsAreWellFormed : Obligations.SuppliedRequestsAreWellFormed := by
  intro r i hr h
  cases r with
  | port r =>
    rw [decode] at h
    split at h
    next => cases h
    next => exact decodeRecord_wf hr h
  | host r => exact decodeRecord_wf hr h
  | insn window =>
    match window, h with
    | b0 :: b1 :: trail, h =>
      cases h
      exact decodeHeaderRow_wf _ _ _

/-- Settles O58: the decoder computes each word's row. -/
theorem tableWordsDecode : Obligations.TableWordsDecode := by
  unfold Obligations.TableWordsDecode
  decide

end Sys2Proof
end

section
/-! What an instruction can do to the state, said once (60_exceptions.md R170 to R173). -/

namespace Sys2Proof.Machine

/-- The outcome is no defect (R172). -/
def Reply.NoFault {α : Type} (r : Reply α) : Prop := ∀ d, r ≠ .fault d

theorem Reply.NoFault.ok {α : Type} (a : α) : (Reply.ok a).NoFault := nofun

theorem Reply.NoFault.map {α β : Type} {r : Reply α} (h : r.NoFault) (f : α → β) : (r.map f).NoFault :=
  fun d hd => h d (Reply.map_eq_fault.mp hd)

/-- The outcome is no defect, and not the error that ROM_LOAD alone can answer (40_router.md R108). -/
def Reply.Regular {α : Type} (r : Reply α) : Prop := r.NoFault ∧ r ≠ .err .outOfBounds

theorem peekBit_regular (c : Cursor) : (peekBit c).Regular := by
  rw [peekBit]
  split <;> exact ⟨nofun, nofun⟩

theorem collect_regular (c : Cursor) (w target : Nat) : (collect c w target).Regular := by
  rw [collect]
  split_ifs <;> exact ⟨nofun, nofun⟩

/-- Neither assertion of DECODE fails (42_decoder.md R159). -/
theorem decodeWindow_regular (p : Params) (window : List Byte) : (decodeWindow p window).Regular := by
  by_cases hlong : windowTooLong p window = true
  · rw [decodeWindow, if_pos hlong]
    exact ⟨nofun, nofun⟩
  · rw [decodeWindow_eq (Bool.eq_false_iff.mpr hlong)]
    split
    next => exact ⟨nofun, nofun⟩
    next =>
      split
      next => exact ⟨nofun, nofun⟩
      next => split <;> exact ⟨nofun, nofun⟩

theorem writeEntries_noFault (p : Params) (es : Regions) (addr : Nat) (data : List Byte) :
    (writeEntries p es addr data).NoFault :=
  fun d hd => (memWrite_plain p (.sparse 0 es) addr data).1 d (Reply.map_eq_fault.mpr hd)

theorem romLoad_noFault (p : Params) (rom : Dense) (addr : Nat) (data : List Byte) :
    (romLoad p rom addr data).NoFault :=
  Reply.NoFault.map (denseWrite_plain p rom addr data).1 _

theorem sparseAdd_noFault (p : Params) (parent : Composite) (off : Nat) (sub : Space) :
    (sparseAdd p parent off sub).NoFault :=
  Reply.NoFault.map (registerSpace_plain p parent off sub) _

/-- `Effect i s t`: instruction `i` may take the state `s` to `t`. It answers, and changes nothing; it is
refused, and sets the mark; or it completes and writes the one part of the state that is its own. -/
inductive Effect : Instr → State → State → Prop where
  | answers {i : Instr} {s : State} {r : Response} (hfault : r.NoFault)
      (hrefused : s.stopped = none → ∀ q, r ≠ .refused q) : Effect i s (s.respond r)
  | refuses {i : Instr} {s : State} (q : RefusedReason) :
      Effect i s (s.markRefused.respond (.refused q))
  | loads {s : State} (w : List Byte) : Effect (.scanLoad w) s ((s.setScan ⟨w, 0⟩).respond (.ok .unit))
  | takes {i : Instr} {s : State} {v : Value} {c : Cursor} (hi : writes i = .scan)
      (hc : s.scan.MovesTo c) : Effect i s ((s.setScan c).respond (.ok v))
  | stores {s : State} {addr : Nat} {data : List Byte} {es : Regions}
      (h : writeEntries Config.params s.root.entries addr data = .ok es) :
      Effect (.write addr data) s ((s.setRoot { s.root with entries := es }).respond (.ok .unit))
  | registers {s : State} {off k : Nat} {sp : Space} {c : Composite}
      (h : registerSpace Config.params s.root off sp = .ok (c, k)) :
      Effect (.addSpace off sp) s ((s.setRoot c).respond (.ok (.index k)))

/-- A command has the effect of its outcome: what is no `OK` has the same effect for every command. -/
theorem effect_of_portCommand {i : Instr} {s t : State} {r : Reply (Value × State)} (hr : r.NoFault)
    (hok : ∀ v u, r = .ok (v, u) → Effect i s (u.respond (.ok v))) (h : portCommand s r = .next t) :
    Effect i s t := by
  obtain ⟨_, rfl⟩ := portCommand_next h
  cases r with
  | ok a => exact hok a.1 a.2 rfl
  | err k => exact .answers nofun fun _ => nofun
  | fault d => exact absurd rfl (hr d)
  | refused q => exact .refuses q

theorem effect_of_portQuery {i : Instr} {s t : State} {r : Reply Value} (hr : r.NoFault)
    (h : portQuery s r = .next t) : Effect i s t := by
  refine effect_of_portCommand (hr.map _) (fun v u hok => ?_) h
  obtain ⟨_, _, heq⟩ := Reply.map_eq_ok.mp hok
  cases heq
  exact .answers nofun fun _ => nofun

theorem effect_of_hostRun {i : Instr} {s t : State} {r : Reply Value} (hr : r.NoFault)
    (h : hostRun s r = .next t) : Effect i s t := by
  rcases hostRun_next h with ⟨hrun, rfl⟩ | ⟨hstopped, rfl⟩
  · exact effect_of_portQuery hr (portQuery_running hrun)
  · exact .answers hr fun hrun => absurd hrun hstopped

theorem effect_of_collectScan {i : Instr} {s t : State} {w target : Nat} (hi : writes i = .scan)
    (h : portCommand s (collectScan w target s) = .next t) : Effect i s t := by
  refine effect_of_portCommand ((collect_regular _ _ _).1.map _) (fun v u hok => ?_) h
  obtain ⟨⟨_, _⟩, hcollect, heq⟩ := Reply.map_eq_ok.mp hok
  cases heq
  exact .takes hi (collect_movesTo hcollect)

/-- What each instruction can do. -/
theorem exec_effect {i : Instr} {s t : State} (h : exec i s = .next t) : Effect i s t := by
  cases i with
  | size | find | isAligned | bitsLeft | atLeast => exact effect_of_portQuery (.ok _) h
  | read start stop => exact effect_of_portQuery (Reply.NoFault.map (memRead_plain _ _ _).1 _) h
  | peekBit => exact effect_of_portQuery ((peekBit_regular _).1.map _) h
  | decode | hdrFmt000 | hdrFmt001 | hdrFmt010 | hdrFmt011 | hdrFmt100 | hdrFmt101 | hdrFmt110
  | hdrFmt111 | mov => exact effect_of_portQuery ((decodeWindow_regular _ _).1.map _) h
  | newDense | newZero | newRom | newSparse => exact effect_of_hostRun (.ok _) h
  | romLoad rom addr data => exact effect_of_hostRun (romLoad_noFault _ _ _ _) h
  | sparseAdd parent off sub => exact effect_of_hostRun (sparseAdd_noFault _ _ _ _) h
  | collect w t => exact effect_of_collectScan rfl h
  | collectType t => exact effect_of_collectScan rfl h
  | nextBit =>
    refine effect_of_portCommand (((peekBit_regular _).1.map _).map _) (fun v u hok => ?_) h
    obtain ⟨⟨_, _⟩, hnext, heq⟩ := Reply.map_eq_ok.mp hok
    cases heq
    exact .takes rfl (nextBit_movesTo hnext)
  | scanLoad w =>
    obtain ⟨hrun, _⟩ := portCommand_next h
    rw [(scanLoadTakesTheWindow Config.params s w hrun).1] at h
    cases h
    rw [windowAnswer]
    split
    · exact .refuses _
    · exact .loads w
  | write addr data =>
    refine effect_of_portCommand ((writeEntries_noFault _ _ _ _).map _) (fun v u hok => ?_) h
    obtain ⟨_, hes, heq⟩ := Reply.map_eq_ok.mp hok
    cases heq
    exact .stores hes
  | addSpace off sp =>
    refine effect_of_portCommand (Reply.NoFault.map (registerSpace_plain _ _ _ _) _) (fun v u hok => ?_) h
    obtain ⟨⟨_, _⟩, hreg, heq⟩ := Reply.map_eq_ok.mp hok
    cases heq
    exact .registers hreg

theorem Effect.inbox_eq {i : Instr} {s t : State} (h : Effect i s t) : t.inbox = s.inbox := by
  cases h <;> rfl

theorem Effect.stopped_eq {i : Instr} {s t : State} (h : Effect i s t) : t.stopped = s.stopped := by
  cases h <;> rfl

theorem Effect.total_eq {i : Instr} {s t : State} (h : Effect i s t) : t.root.total = s.root.total := by
  cases h with
  | registers hreg =>
    obtain ⟨_, _, _, _, _, rfl⟩ := registerSpace_ok.mp hreg
    rfl
  | answers | refuses | loads | takes | stores => rfl

theorem Effect.response_ne_fault {i : Instr} {s t : State} (h : Effect i s t) (d : Defect) :
    t.response ≠ some (.fault d) := by
  cases h with
  | answers hfault => exact fun heq => hfault d (Option.some.inj heq)
  | refuses | loads | takes | stores | registers => exact nofun

/-- A running block's refusal is the mark and the response (R173). -/
theorem Effect.eq_of_refused {i : Instr} {s t : State} {q : RefusedReason} (h : Effect i s t)
    (hrun : s.stopped = none) (hq : t.response = some (.refused q)) :
    t = s.markRefused.respond (.refused q) := by
  cases h with
  | answers _ hrefused => exact absurd (Option.some.inj hq) (hrefused hrun q)
  | refuses => cases hq; rfl
  | loads | takes | stores | registers => cases hq

/-- Settles O20: SIZE reads the total, and no effect writes it. -/
theorem sizeAnswersTheDeclaredTotal : Obligations.SizeAnswersTheDeclaredTotal :=
  ⟨fun _ hrun => portQuery_running hrun, fun _ _ _ h => (exec_effect h).total_eq⟩

/-- Settles O13: the effects that write the scanner unit are `OK`, and SCAN_LOAD's alone replaces the
window. -/
theorem scannerWrites : Obligations.ScannerWrites := by
  intro i s t h
  refine ⟨fun hi => ?_, fun hi => ?_, fun hv => ?_⟩
  · cases exec_effect h with
    | loads => exact absurd rfl hi
    | takes hscan => exact absurd hscan hi
    | answers | refuses | stores | registers => rfl
  · obtain ⟨_, _, hmoved⟩ := exec_movesTo hi h
    rw [hmoved]
  · cases exec_effect h with
    | loads | takes => exact absurd rfl (hv _)
    | answers | refuses | stores | registers => rfl

/-- A stopped block runs constructors alone, and each of them only answers (10_state.md R40). -/
theorem exec_stopped {i : Instr} {s : State} {d : Defect} (hs : s.stopped = some d) :
    (writes i ≠ .host ∧ exec i s = .fault (.blockStopped d))
      ∨ (writes i = .host ∧ ∃ r, exec i s = .next (s.respond r)) := by
  rcases exec_eq_by_writes i s with ⟨hi, r, hexec⟩ | ⟨hi, r, hexec⟩ | ⟨hi, r, hexec⟩
  · exact .inl ⟨by simp [hi], hexec.trans (portCommand_stopped hs)⟩
  · exact .inl ⟨by rcases hi with hi | hi <;> simp [hi], hexec.trans (portCommand_stopped hs)⟩
  · exact .inr ⟨hi, r, hexec.trans (hostRun_stopped hs)⟩

/-- Settles O10: the refusal of a running block, the answer of a stopped one, and the mark that a step
keeps. -/
theorem refusalOnlySetsTheMark : Obligations.RefusalOnlySetsTheMark := by
  refine ⟨fun i s t q hrun h hq => (exec_effect h).eq_of_refused hrun hq, fun i s t d hs h => ?_,
    fun s t h hreset => (step_keepsMarks h hreset).2⟩
  rcases exec_stopped (i := i) hs with ⟨_, hfault⟩ | ⟨_, r, hnext⟩
  · cases hfault.symm.trans h
  · cases hnext.symm.trans h
    exact ⟨r, rfl⟩

/-- Each constructor runs one outcome, whatever the state. -/
theorem exec_constructor {i : Instr} (hi : writes i = .host) :
    ∃ r : Reply Value, r.NoFault ∧ ∀ s, exec i s = hostRun s r := by
  cases i with
  | newDense | newZero | newRom | newSparse => exact ⟨_, .ok _, fun _ => rfl⟩
  | romLoad rom addr data => exact ⟨_, romLoad_noFault _ _ _ _, fun _ => rfl⟩
  | sparseAdd parent off sub => exact ⟨_, sparseAdd_noFault _ _ _ _, fun _ => rfl⟩
  | size | read | find | peekBit | isAligned | bitsLeft | atLeast | decode | hdrFmt000 | hdrFmt001
  | hdrFmt010 | hdrFmt011 | hdrFmt100 | hdrFmt101 | hdrFmt110 | hdrFmt111 | mov | write | addSpace
  | scanLoad | nextBit | collect | collectType => cases hi

/-- Settles O12: the constructor's one outcome is its response, and a refusal sets the mark of a running
block. -/
theorem constructorsTouchNoBlockState : Obligations.ConstructorsTouchNoBlockState := by
  intro i hi
  obtain ⟨r, hfault, hexec⟩ := exec_constructor hi
  refine ⟨r, hfault, fun s => ⟨fun hrun => ?_, fun d hs => (hexec s).trans (hostRun_stopped hs)⟩⟩
  rw [hexec s, hostRun_running hrun]
  cases r with
  | ok v => rfl
  | err k => rfl
  | fault d => exact absurd rfl (hfault d)
  | refused q => rfl

/-- Settles O36: each constructor answers its empty store, whose bytes read 0 as no WRITE has reached it. -/
theorem newStoresAreEmpty : Obligations.NewStoresAreEmpty := by
  intro s n
  refine ⟨hostRun_ok _ _, hostRun_ok _ _, hostRun_ok _ _, hostRun_ok _ _, fun a ha => ⟨?_, ?_, ?_⟩⟩
  · exact byteAt_unwritten _ a .dense ((unwritten_dense _).mpr rfl) (if_pos ha) nofun
  · exact byteAt_unwritten _ a .zero (unwritten_zero n) (if_pos ha) nofun
  · rw [byteAt, memRead_rom (by omega) ha, Nat.add_sub_cancel_left]
    rfl

end Sys2Proof.Machine
end

section
/-! What one step does with its input (00_scope.md R4, 60_exceptions.md R172). -/

namespace Sys2Proof.Machine

/-- A toy row runs as DECODE of the bytes that it encodes to (30_encoding.md R88). -/
theorem exec_formatRow (fmt : BitVec 3) (op : BitVec 4) (out r1 r2 : RegCode) (trail : List Byte)
    (s : State) :
    exec (formatRow fmt op out r1 r2 trail) s
      = exec (.decode (headerBytes op out fmt r1 r2 ++ trail)) s := by
  revert fmt
  refine forall_format ?_
  simp only [formatCodes, List.forall_mem_cons]
  exact ⟨rfl, rfl, rfl, rfl, rfl, rfl, rfl, rfl, nofun⟩

theorem exec_decodeHeaderRow (h : BitVec 16) (trail : List Byte) (s : State) :
    exec (decodeHeaderRow h trail) s = exec (.decode (wordBytes h ++ trail)) s := by
  rw [decodeHeaderRow_eq]
  split
  next hop =>
    have fields := headerOf_fields h
    rw [hop] at fields
    conv_rhs => rw [← fields]
    rfl
  next => rw [exec_formatRow, headerBytes, headerOf_fields]

/-- Settles O4: the step's own case for a request that decodes. -/
theorem stepRunsDecodedRequest : Obligations.StepRunsDecodedRequest := by
  intro s r rest i hin hdec
  rw [step, hin]
  simp only [hdec]

theorem step_rejects {s : State} {r : Request} {rest : List Input} {e : DecodeError}
    (hin : s.inbox = .request r :: rest) (hdec : decode r = .error e) :
    step s = rejectRequest r (s.setInbox rest) := by
  rw [step, hin]
  simp only [hdec]

/-- Settles O7: with a header the window's row runs as DECODE of its bytes, which are the window, and without
one the window is rejected to DECODE. -/
theorem toyInstructionStepsAsDecode : Obligations.ToyInstructionStepsAsDecode := by
  intro s window rest hin
  match window, hin with
  | [], hin => exact step_rejects hin rfl
  | [_], hin => exact step_rejects hin rfl
  | b0 :: b1 :: trail, hin =>
    rw [stepRunsDecodedRequest s _ rest _ hin rfl, exec_decodeHeaderRow, wordBytes_headerWord]
    rfl

/-- A step that takes a request runs a command, well formed if the request can be supplied, or refuses the
request (R71, R88). -/
theorem step_request_eq {s : State} {r : Request} {rest : List Input}
    (hin : s.inbox = .request r :: rest) :
    (∃ i, (Input.wf Config.params (.request r) = true → i.wf Config.params = true)
        ∧ step s = exec i (s.setInbox rest))
      ∨ step s = portCommand (s.setInbox rest) (.refused .unknownCommand) := by
  cases hdec : decode r with
  | ok i =>
    exact .inl ⟨i, fun hr => suppliedRequestsAreWellFormed r i hr hdec,
      stepRunsDecodedRequest s r rest i hin hdec⟩
  | error e =>
    cases r with
    | port r => exact .inr (step_rejects hin hdec)
    | host r => exact .inr (step_rejects hin hdec)
    | insn window => exact .inl ⟨.decode window, fun _ => rfl, toyInstructionStepsAsDecode s window rest hin⟩

/-- What a step can be: idle, a reset, an instruction's run, or the refusal of a request. -/
theorem step_next {s t : State} (h : step s = .next t) :
    (s.inbox = [] ∧ t = s)
      ∨ (∃ rest, s.inbox = .reset :: rest ∧ t = State.reset.setInbox rest)
      ∨ (∃ r rest i, s.inbox = .request r :: rest
          ∧ (Input.wf Config.params (.request r) = true → i.wf Config.params = true)
          ∧ Effect i (s.setInbox rest) t)
      ∨ ∃ r rest, s.inbox = .request r :: rest
          ∧ t = (s.setInbox rest).markRefused.respond (.refused .unknownCommand) := by
  cases hin : s.inbox with
  | nil =>
    rw [step_idle hin, idle] at h
    split at h
    · cases h
    · cases h
      exact .inl ⟨rfl, rfl⟩
  | cons input rest =>
    cases input with
    | reset =>
      rw [step_reset hin] at h
      cases h
      exact .inr (.inl ⟨rest, rfl, rfl⟩)
    | request r =>
      rcases step_request_eq hin with ⟨i, hwf, hexec⟩ | hrefuse
      · exact .inr (.inr (.inl ⟨r, rest, i, rfl, hwf, exec_effect (hexec.symm.trans h)⟩))
      · obtain ⟨_, ht⟩ := portCommand_next (hrefuse.symm.trans h)
        exact .inr (.inr (.inr ⟨r, rest, rfl, ht⟩))

/-- Settles O3: whatever a step does, what is left of the inbox is its tail. -/
theorem stepTakesOneInput : Obligations.StepTakesOneInput := by
  refine ⟨fun s t h => ?_, fun s hin hrun => ?_⟩
  · rcases step_next h with
      ⟨hin, rfl⟩ | ⟨rest, hin, rfl⟩ | ⟨r, rest, i, hin, _, heffect⟩ | ⟨r, rest, hin, rfl⟩
    · rw [hin, List.tail_nil]
    · rw [hin, List.tail_cons, State.setInbox_inbox]
    · rw [hin, List.tail_cons, heffect.inbox_eq, State.setInbox_inbox]
    · rw [hin, List.tail_cons, State.respond_inbox, State.markRefused_inbox, State.setInbox_inbox]
  · rw [step_idle hin, idle, hrun]

/-- A running block answers every instruction (R4). -/
theorem exec_running (i : Instr) {s : State} (hrun : s.stopped = none) : ∃ t, exec i s = .next t := by
  rcases exec_eq_by_writes i s with ⟨_, r, hexec⟩ | ⟨_, r, hexec⟩ | ⟨_, r, hexec⟩
  · exact ⟨_, hexec.trans (portQuery_running hrun)⟩
  · exact ⟨_, hexec.trans (portCommand_running hrun)⟩
  · exact ⟨_, hexec.trans (hostRun_running hrun)⟩

theorem step_running {s : State} (hrun : s.stopped = none) : ∃ t, step s = .next t := by
  cases hin : s.inbox with
  | nil => exact ⟨s, stepTakesOneInput.2 s hin hrun⟩
  | cons input rest =>
    cases input with
    | reset => exact ⟨_, step_reset hin⟩
    | request r =>
      rcases step_request_eq hin with ⟨i, _, hexec⟩ | hrefuse
      · rw [hexec]
        exact exec_running i hrun
      · exact ⟨_, hrefuse.trans (portCommand_running hrun)⟩

/-- Settles O8: a running block answers, and no effect stops it or responds with a defect. -/
theorem noInputReachesADefect : Obligations.NoInputReachesADefect := by
  intro s hrun
  obtain ⟨t, h⟩ := step_running hrun
  refine ⟨t, h, ?_⟩
  rcases step_next h with ⟨_, rfl⟩ | ⟨rest, _, rfl⟩ | ⟨r, rest, i, _, _, heffect⟩ | ⟨r, rest, _, rfl⟩
  · exact ⟨hrun, fun _ hd => hd⟩
  · exact ⟨rfl, nofun⟩
  · exact ⟨heffect.stopped_eq.trans hrun, fun d hd => absurd hd (heffect.response_ne_fault d)⟩
  · exact ⟨hrun, nofun⟩

/-- The codes that are no command's at the port: the reserved ones and the constructors' (R69 to R71). -/
theorem decode_port_error {r : Record}
    (h : r.cmd.toNat ∈ [0x05, 0x06, 0x07, 0x11, 0x12, 0x13, 0x14, 0x15, 0x16, 0x17, 0x1E, 0x1F,
      0x18, 0x19, 0x1A, 0x1B, 0x1C, 0x1D]) :
    decode (.port r) = .error (.unknownCommand r.cmd) := by
  rw [decode]
  split
  next => rfl
  next hcode =>
    simp only [isConstructorCode, Bool.and_eq_true, decide_eq_true_eq] at hcode
    simp only [List.mem_cons, List.not_mem_nil, or_false] at h
    rw [decodeRecord]
    split
    any_goals omega
    rfl

/-- Settles O5: such a record is rejected, and a running block refuses it. -/
theorem meaninglessCodesAreRefused : Obligations.MeaninglessCodesAreRefused := by
  intro s r rest hrun hin hcode
  rw [step_rejects hin (decode_port_error hcode)]
  exact portCommand_running hrun

/-- The constructor codes are those of the constructors (R70). -/
theorem writes_eq_host_iff {r : Record} {i : Instr} (h : decodeRecord r = .ok i) :
    writes i = .host ↔ isConstructorCode r.cmd = true := by
  rw [decodeRecord] at h
  split at h <;> cases h <;> rename_i hcmd <;> simp [isConstructorCode, writes, hcmd]

/-- No record at the port decodes to a constructor (R71). -/
theorem writes_ne_host_of_decode_port {r : Record} {i : Instr} (h : decode (.port r) = .ok i) :
    writes i ≠ .host := by
  rw [decode] at h
  split at h
  next => cases h
  next hcode => exact fun hhost => hcode ((writes_eq_host_iff h).mp hhost)

/-- Settles O6: what the block runs itself stops, a port record among it, and a constructor only answers. -/
theorem stoppedBlockHasNoStep : Obligations.StoppedBlockHasNoStep := by
  intro s d hs
  have fault {i : Instr} {s : State} (hs : s.stopped = some d) (hi : writes i ≠ .host) :
      exec i s = .fault (.blockStopped d) := by
    rcases exec_stopped (i := i) hs with ⟨_, hfault⟩ | ⟨hhost, _⟩
    · exact hfault
    · exact absurd hhost hi
  refine ⟨fun i => fault hs, fun r rest hin => ?_, fun i hi => ?_⟩
  · cases hdec : decode (.port r) with
    | ok i =>
      rw [stepRunsDecodedRequest s _ rest i hin hdec]
      exact fault hs (writes_ne_host_of_decode_port hdec)
    | error e =>
      rw [step_rejects hin hdec]
      exact portCommand_stopped hs
  · rcases exec_stopped (i := i) hs with ⟨hno, _⟩ | ⟨_, hanswer⟩
    · exact absurd hi hno
    · exact hanswer

/-- Settles O1: by the definition of the reset state. -/
theorem resetStateIsInitial : Obligations.ResetStateIsInitial := ⟨rfl, rfl, rfl, rfl⟩

/-- Settles O15: the root is empty, the cursor at the start of its window, and no input to come. -/
theorem resetSatisfiesTheInvariant : Obligations.ResetSatisfiesTheInvariant :=
  ⟨reset_root_wf, Nat.zero_le _, rfl⟩

end Sys2Proof.Machine
end

section
/-! The response of an earlier command (10_state.md R23). -/

namespace Sys2Proof.Machine

/-- The result of a command with the response `r` in the state that it gives. -/
def withResponse (r : Response) (a : Value × State) : Value × State := (a.1, a.2.respond r)

theorem map_eq_map_withResponse {α : Type} {x : Reply α} {f g : α → Value × State} {r : Response}
    (h : ∀ a, f a = withResponse r (g a)) : x.map f = (x.map g).map (withResponse r) := by
  cases x with
  | ok a => rw [Reply.map_ok, Reply.map_ok, Reply.map_ok, h]
  | err | fault | refused => rfl

/-- A delivery puts its own response in place of the one before. -/
theorem portCommand_respond {s : State} {r : Response} {x y : Reply (Value × State)}
    (h : x = y.map (withResponse r)) : portCommand (s.respond r) x = portCommand s y := by
  rw [h, portCommand, portCommand, State.respond_stopped]
  cases s.stopped with
  | some d => rfl
  | none => cases y <;> rfl

theorem portQuery_respond (s : State) (r : Response) (x : Reply Value) :
    portQuery (s.respond r) x = portQuery s x :=
  portCommand_respond (map_eq_map_withResponse fun _ => rfl)

theorem hostRun_respond (s : State) (r : Response) (x : Reply Value) :
    hostRun (s.respond r) x = hostRun s x := by
  rw [hostRun, hostRun, State.respond_stopped]
  cases s.stopped with
  | some d => rfl
  | none => cases x <;> rfl

theorem loadWindow_respond (p : Params) (w : List Byte) (s : State) (r : Response) :
    loadWindow p w (s.respond r) = (loadWindow p w s).map (withResponse r) := by
  rw [loadWindow, loadWindow]
  split <;> rfl

/-- Settles O11: an instruction's outcome is computed from the other fields, and its delivery replaces the
response. -/
theorem noCommandReadsTheResponse : Obligations.NoCommandReadsTheResponse := by
  intro i s r
  cases i with
  | size | read | find | peekBit | isAligned | bitsLeft | atLeast | decode | hdrFmt000 | hdrFmt001
  | hdrFmt010 | hdrFmt011 | hdrFmt100 | hdrFmt101 | hdrFmt110 | hdrFmt111 | mov =>
    exact portQuery_respond s r _
  | newDense | newZero | newRom | romLoad | newSparse | sparseAdd => exact hostRun_respond s r _
  | write | addSpace | nextBit | collect | collectType =>
    exact portCommand_respond (map_eq_map_withResponse fun _ => rfl)
  | scanLoad w => exact portCommand_respond (loadWindow_respond _ w s r)

end Sys2Proof.Machine
end

section
/-! The checks of registration (10_state.md R33, 40_router.md R114 to R119). -/

namespace Sys2Proof.Machine

theorem overlaps_iff {a0 a1 b0 b1 : Nat} :
    overlaps a0 a1 b0 b1 = true ↔ a0 = b0 ∨ (b0 ≤ a0 ∧ a0 < b1) ∨ (a0 ≤ b0 ∧ b0 < a1) := by
  simp only [overlaps, Bool.or_eq_true, Bool.and_eq_true, beq_iff_eq, decide_eq_true_eq, or_assoc]

theorem overlaps_comm (a0 a1 b0 b1 : Nat) : overlaps a0 a1 b0 b1 = overlaps b0 b1 a0 a1 := by
  rw [Bool.eq_iff_iff, overlaps_iff, overlaps_iff]
  omega

/-- Two ranges with an address in common overlap. -/
theorem overlaps_of_common {a0 a1 b0 b1 x : Nat} (ha : a0 ≤ x ∧ x < a1) (hb : b0 ≤ x ∧ x < b1) :
    overlaps a0 a1 b0 b1 = true :=
  overlaps_iff.mpr (by omega)

/-- Settles O19: each property is one of the order of the four ends; the common address is the later start. -/
theorem overlapPredicate : Obligations.OverlapPredicate := by
  intro a0 a1 b0 b1
  refine ⟨overlaps_iff, overlaps_comm a0 a1 b0 b1, fun ha hb => ⟨fun h => ?_, ?_⟩, fun ha htouch hb => ?_,
    fun hlo hhi => overlaps_iff.mpr (.inr (.inl ⟨hlo, hhi⟩))⟩
  · have h := overlaps_iff.mp h
    exact ⟨max a0 b0, by omega, by omega⟩
  · rintro ⟨x, hxa, hxb⟩
    exact overlaps_of_common hxa hxb
  · rw [Bool.eq_false_iff, Ne, overlaps_iff]
    omega

theorem registerSpace_overflow {p : Params} {parent : Composite} {off : Nat} {sub : Space}
    (h : off + sub.size > p.maxAddr ∨ off + sub.size > parent.total) :
    registerSpace p parent off sub = .err .overflow := by
  rw [registerSpace, checkedAdd]
  split
  next hmax => rw [Reply.bind_ok, if_pos (h.resolve_left (Nat.not_lt.mpr hmax))]
  next => rfl

/-- Past the bound the overlap is the next check (R117). -/
theorem registerSpace_overlap {p : Params} {parent : Composite} {off k o : Nat} {sub e : Space}
    (hmax : off + sub.size ≤ p.maxAddr) (htotal : off + sub.size ≤ parent.total)
    (hget : parent.entries.get? k = some (o, e))
    (hover : overlaps off (off + sub.size) o (o + e.size) = true) :
    registerSpace p parent off sub = .err .overlap := by
  have some_overlaps : overlapsAny off (off + sub.size) parent.entries = true := by
    by_contra hno
    rw [overlapsAny_false.mp (Bool.eq_false_iff.mpr hno) k o e hget] at hover
    cases hover
  rw [registerSpace, checkedAdd_ok.mpr ⟨hmax, rfl⟩, Reply.bind_ok, if_neg (Nat.not_lt.mpr htotal),
    if_pos some_overlaps]

/-- Past the overlap check the capacity is the last one (R117). -/
theorem registerSpace_full {p : Params} {parent : Composite} {off : Nat} {sub : Space}
    (hmax : off + sub.size ≤ p.maxAddr) (htotal : off + sub.size ≤ parent.total)
    (hapart : ∀ k o e, parent.entries.get? k = some (o, e) →
      overlaps off (off + sub.size) o (o + e.size) = false)
    (hfull : tableFull p parent.entries = true) :
    registerSpace p parent off sub = .refused .tableFull := by
  rw [registerSpace, checkedAdd_ok.mpr ⟨hmax, rfl⟩, Reply.bind_ok, if_neg (Nat.not_lt.mpr htotal),
    overlapsAny_false.mpr hapart, if_neg Bool.false_ne_true, if_pos hfull]

theorem tableFull_of_count {p : Params} {es : Regions} (h : p.maxRegions = some es.count) :
    tableFull p es = true := by
  rw [tableFull, h]
  exact beq_self_eq_true _

/-- Both commands deliver the failure of a registration. -/
theorem registration_err {p : Params} {s : State} {off : Nat} {sp : Space} {k : ErrKind}
    (hrun : s.stopped = none) (h : registerSpace p s.root off sp = .err k) :
    portCommand s (addToRoot p off sp s) = .next (s.respond (.err k))
      ∧ hostRun s (sparseAdd p s.root off sp) = .next (s.respond (.err k)) := by
  rw [portCommand_running hrun, hostRun_running hrun, addToRoot, sparseAdd, h]
  exact ⟨rfl, rfl⟩

theorem registration_refused {p : Params} {s : State} {off : Nat} {sp : Space} {q : RefusedReason}
    (hrun : s.stopped = none) (h : registerSpace p s.root off sp = .refused q) :
    portCommand s (addToRoot p off sp s) = .next (s.markRefused.respond (.refused q))
      ∧ hostRun s (sparseAdd p s.root off sp) = .next (s.markRefused.respond (.refused q)) := by
  rw [portCommand_running hrun, hostRun_running hrun, addToRoot, sparseAdd, h]
  exact ⟨rfl, rfl⟩

theorem exec_sparseAdd (parent : Composite) (off : Nat) (sub : Space) (s : State) :
    exec (.sparseAdd parent off sub) s = hostRun s (sparseAdd Config.params parent off sub) := rfl

/-- Settles O34: one rule of registration per check, and both commands deliver its outcome. -/
theorem addSpaceChecksInOrder : Obligations.AddSpaceChecksInOrder := fun _ s off sp hrun =>
  ⟨fun h => registration_err hrun (registerSpace_overflow h),
    fun hmax htotal =>
      ⟨fun _ _ _ hget hover => registration_err hrun (registerSpace_overlap hmax htotal hget hover),
        fun hapart hcount =>
          registration_refused hrun (registerSpace_full hmax htotal hapart (tableFull_of_count hcount))⟩,
    exec_addSpace off sp s, exec_sparseAdd s.root off sp s⟩

/-- After a registration every space that overlaps the one registered is turned away, if it fits. -/
theorem registerSpace_overlap_registered {p : Params} {c c' : Composite} {a b k : Nat} {A B : Space}
    (h : registerSpace p c a A = .ok (c', k)) (hmax : b + B.size ≤ p.maxAddr)
    (htotal : b + B.size ≤ c.total) (hover : overlaps b (b + B.size) a (a + A.size) = true) :
    registerSpace p c' b B = .err .overlap := by
  obtain ⟨_, _, _, _, rfl, rfl⟩ := registerSpace_ok.mp h
  exact registerSpace_overlap hmax htotal (get?_insertAt_self (sortedSlot_le_count a c.entries)) hover

/-- Settles O35: the one that comes first is then an entry of the table. -/
theorem overlapIsRejectedInEitherOrder : Obligations.OverlapIsRejectedInEitherOrder := by
  intro p c cA cB a b kA kB A B hover hA hB
  obtain ⟨hmaxA, htotalA, _⟩ := registerSpace_ok.mp hA
  obtain ⟨hmaxB, htotalB, _⟩ := registerSpace_ok.mp hB
  exact ⟨registerSpace_overlap_registered hA hmaxB htotalB ((overlaps_comm ..).trans hover),
    registerSpace_overlap_registered hB hmaxA htotalA hover⟩

/-- The constructor's outcome on a table with room, at every parameters. -/
theorem sparseAdd_inserts {p : Params} {parent : Composite} {off : Nat} {sp : Space}
    (h : Addable p parent off sp) (hroom : tableFull p parent.entries = false) (s : State) :
    ∃ k es, InsertedAt parent.entries es off sp k
      ∧ hostRun s (sparseAdd p parent off sp)
        = .next (s.respond (.ok (.spaceAt (.sparse parent.total es) k))) := by
  refine ⟨_, _, insertedAt_sortedSlot (regions_wf_of_composite_wf h.1) off sp, ?_⟩
  rw [sparseAdd, registerSpace_of_addable h, hroom, if_neg Bool.false_ne_true, Reply.map_ok, hostRun_ok]
  rfl

/-- Settles O38: of the three checks only the capacity is left, and the slot is the sorted one. -/
theorem sparseAddInsertsAtTheSortedSlot : Obligations.SparseAddInsertsAtTheSortedSlot := by
  refine ⟨fun s parent off sp h => ?_, fun p s parent off sp h hroom => sparseAdd_inserts h hroom s⟩
  rw [exec_sparseAdd]
  split
  next hfull =>
    have refused : sparseAdd Config.params parent off sp = .refused .tableFull := by
      rw [sparseAdd, registerSpace_of_addable h, if_pos hfull, Reply.map_refused]
    rw [refused]
    exact ⟨hostRun_running, fun _ => hostRun_stopped⟩
  next hroom => exact sparseAdd_inserts h (Bool.eq_false_iff.mpr hroom) s

end Sys2Proof.Machine
end

section
/-! Well-formed tables stay so under registration (10_state.md R31 to R33, R43), and what is unwritten stays
so (40_router.md R123). -/

namespace Sys2Proof.Machine

theorem count_insertAt (off : Nat) (sub : Space) (k : Nat) (es : Regions) :
    (insertAt off sub k es).count = es.count + 1 := by
  match k, es with
  | 0, _ => rfl
  | _ + 1, .nil => rfl
  | k + 1, .cons o s rest =>
    simp only [insertAt, Regions.count, count_insertAt off sub k rest]

/-- What holds of the new entry and of every old one holds of every entry. -/
theorem all_insertAt {f : Nat → Space → Bool} {off : Nat} {sub : Space} {k : Nat} {es : Regions}
    (hnew : f off sub = true) (h : es.all f = true) : (insertAt off sub k es).all f = true := by
  match k, es with
  | 0, _ => simp [insertAt, Regions.all, hnew, h]
  | _ + 1, .nil => simp [insertAt, Regions.all, hnew]
  | k + 1, .cons o s rest =>
    simp only [Regions.all, Bool.and_eq_true] at h
    simp only [insertAt, Regions.all, h.1, all_insertAt hnew h.2, Bool.and_self]

/-- A space that fits and overlaps no entry joins the table at its sorted slot. -/
theorem regions_wf_insertAt {p : Params} {total off : Nat} {sub : Space} {es : Regions}
    (h : Regions.wf p total es = true) (hsub : sub.wf p = true) (hfit : off + sub.size ≤ total)
    (hapart : ∀ k o e, es.get? k = some (o, e) → overlaps off (off + sub.size) o (o + e.size) = false) :
    Regions.wf p total (insertAt off sub (sortedSlot off es) es) = true := by
  match es with
  | .nil => simp [sortedSlot, insertAt, Regions.wf, Regions.all, hsub, hfit]
  | .cons o s rest =>
    obtain ⟨hs, hsfit, later, hrest⟩ := regions_wf_cons.mp h
    have apart := hapart 0 o s rfl
    have ne : off ≠ o := fun heq => by rw [overlaps_iff.mpr (.inl heq)] at apart; cases apart
    by_cases hlt : o < off
    · have slot : sortedSlot off (.cons o s rest) = sortedSlot off rest + 1 := by
        rw [sortedSlot, if_pos hlt, Nat.add_comm]
      simp only [slot, insertAt, Regions.wf, Bool.and_eq_true, decide_eq_true_eq]
      refine ⟨⟨⟨hs, hsfit⟩, all_insertAt ?_ ?_⟩,
        regions_wf_insertAt hrest hsub hfit fun k o e hk => hapart (k + 1) o e hk⟩
      · rw [overlaps_comm, apart]
        simp [hlt]
      · simpa [Regions.all_iff] using later
    · have first : ∀ k o' e, (Regions.cons o s rest).get? k = some (o', e) → off < o' := by
        intro k o' e hk
        cases k with
        | zero => cases hk; omega
        | succ k => have := (later k o' e hk).1; omega
      rw [sortedSlot_eq_zero fun k o' e hk => (first k o' e hk).le, insertAt]
      exact regions_wf_cons.mpr ⟨hsub, hfit, fun k o' e hk => ⟨first k o' e hk, hapart k o' e hk⟩, h⟩

/-- A table that is not full has room for one more entry. -/
theorem tableFits_succ {p : Params} {es : Regions} (hfits : p.tableFits es.count = true)
    (hroom : tableFull p es = false) : p.tableFits (es.count + 1) = true := by
  rw [Params.tableFits] at hfits ⊢
  rw [tableFull] at hroom
  cases hmax : p.maxRegions with
  | none => rfl
  | some m =>
    simp only [hmax, beq_eq_false_iff_ne, decide_eq_true_eq] at hfits hroom ⊢
    omega

/-- A registration of a well-formed space keeps the invariants of the composite (R43). -/
theorem registerSpace_wf {p : Params} {parent c : Composite} {off k : Nat} {sub : Space}
    (h : registerSpace p parent off sub = .ok (c, k)) (hparent : parent.wf p = true)
    (hsub : sub.wf p = true) : c.wf p = true := by
  obtain ⟨_, htotal, hapart, hroom, rfl, rfl⟩ := registerSpace_ok.mp h
  simp only [Composite.wf, Composite.toSpace, Space.wf, Bool.and_eq_true, count_insertAt] at hparent ⊢
  obtain ⟨⟨hmax, hfits⟩, hwf⟩ := hparent
  exact ⟨⟨hmax, tableFits_succ hfits hroom⟩,
    regions_wf_insertAt hwf hsub htotal (overlapsAny_false.mp hapart)⟩

theorem unwritten_insertAt {off : Nat} {sub : Space} {k : Nat} {es : Regions}
    (hsub : sub.unwritten = true) (h : es.unwritten = true) :
    (insertAt off sub k es).unwritten = true := by
  match k, es with
  | 0, _ => simp [insertAt, Regions.unwritten, hsub, h]
  | _ + 1, .nil => simp [insertAt, Regions.unwritten, hsub]
  | k + 1, .cons o s rest =>
    simp only [Regions.unwritten, Bool.and_eq_true] at h
    simp only [insertAt, Regions.unwritten, h.1, unwritten_insertAt hsub h.2, Bool.and_self]

theorem registerSpace_unwritten {p : Params} {parent c : Composite} {off k : Nat} {sub : Space}
    (h : registerSpace p parent off sub = .ok (c, k)) (hparent : parent.toSpace.unwritten = true)
    (hsub : sub.unwritten = true) : c.toSpace.unwritten = true := by
  obtain ⟨_, _, _, _, rfl, rfl⟩ := registerSpace_ok.mp h
  exact unwritten_insertAt hsub hparent

end Sys2Proof.Machine
end

section
/-! The contents of a buffer and its canonical form (10_state.md R26). -/

namespace Sys2Proof

theorem memory_wf_cons {k : Nat} {v : Byte} {m : Memory} :
    Memory.wf ((k, v) :: m) = true ↔
      v ≠ 0#8 ∧ (∀ c ∈ m, k < c.1) ∧ Memory.wf m = true := by
  simp [Memory.wf, and_assoc]

/-- Below its first cell a buffer reads 0. -/
theorem readByte_eq_zero_of_lt {m : Memory} {a : Nat} (h : ∀ c ∈ m, a < c.1) : readByte m a = 0#8 := by
  induction m with
  | nil => rfl
  | cons c m ih =>
    have first : a < c.1 := h c List.mem_cons_self
    rw [readByte, if_neg (by omega), ih fun c hc => h c (List.mem_cons_of_mem _ hc)]

theorem readByte_cons_self (k : Nat) (v : Byte) (m : Memory) : readByte ((k, v) :: m) k = v :=
  if_pos rfl

/-- Where two buffers read the same, neither starts before the other: its first cell is not 0. -/
theorem first_index_le {k l : Nat} {v w : Byte} {m n : Memory} (hm : Memory.wf ((k, v) :: m) = true)
    (hn : Memory.wf ((l, w) :: n) = true)
    (h : ∀ a, readByte ((k, v) :: m) a = readByte ((l, w) :: n) a) : l ≤ k := by
  obtain ⟨hv, _, _⟩ := memory_wf_cons.mp hm
  obtain ⟨_, hln, _⟩ := memory_wf_cons.mp hn
  by_contra hle
  have hlt := Nat.lt_of_not_le hle
  have first := h k
  rw [readByte_cons_self,
    readByte_eq_zero_of_lt (List.forall_mem_cons.mpr ⟨hlt, fun c hc => hlt.trans (hln c hc)⟩)] at first
  exact hv first

/-- Two buffers in canonical form that read the same are the same list (log entry 12). -/
theorem memory_ext {m n : Memory} (hm : Memory.wf m = true) (hn : Memory.wf n = true)
    (h : ∀ a, readByte m a = readByte n a) : m = n := by
  induction m generalizing n with
  | nil =>
    cases n with
    | nil => rfl
    | cons c n =>
      have first := h c.1
      rw [readByte_cons_self] at first
      exact absurd first.symm (memory_wf_cons.mp hn).1
  | cons c m ih =>
    obtain ⟨k, v⟩ := c
    obtain ⟨hv, hkm, hmrest⟩ := memory_wf_cons.mp hm
    cases n with
    | nil =>
      have first := h k
      rw [readByte_cons_self] at first
      exact absurd first hv
    | cons c n =>
      obtain ⟨l, w⟩ := c
      obtain ⟨_, hln, hnrest⟩ := memory_wf_cons.mp hn
      have same_index : k = l :=
        Nat.le_antisymm (first_index_le hn hm fun a => (h a).symm) (first_index_le hm hn h)
      subst same_index
      have same_value : v = w := by
        have first := h k
        rwa [readByte_cons_self, readByte_cons_self] at first
      have same_rest : m = n := by
        refine ih hmrest hnrest fun a => ?_
        by_cases ha : k = a
        · subst ha
          rw [readByte_eq_zero_of_lt hkm, readByte_eq_zero_of_lt hln]
        · have := h a
          rwa [readByte, if_neg ha, readByte, if_neg ha] at this
      rw [same_value, same_rest]

/-- Storing the same bytes again changes nothing (20_memory.md R54). -/
theorem writeBytes_writeBytes {m : Memory} (a : Nat) (data : List Byte) (hm : Memory.wf m = true) :
    writeBytes (writeBytes m a data) a data = writeBytes m a data := by
  have hwf : Memory.wf (writeBytes m a data) = true := writeBytes_wf hm
  refine memory_ext (writeBytes_wf hwf) hwf fun x => ?_
  by_cases hx : x < a ∨ a + data.length ≤ x
  · exact readByte_writeBytes_outside _ _ _ _ hx
  · obtain ⟨i, rfl⟩ : ∃ i, x = a + i := ⟨x - a, by omega⟩
    rw [readByte_writeBytes_inside _ _ _ hwf i (by omega), readByte_writeBytes_inside _ _ _ hm i (by omega)]

end Sys2Proof
end

section
/-! The induction over the nesting of a space, and what a write that answers OK does at every level
(40_router.md R102, R105). -/

namespace Sys2Proof.Machine

/-- What holds of the leaf stores, and of a composite whenever it holds of its sub-spaces, holds of every
space. -/
theorem space_induction {P : Space → Prop} (leaf : ∀ sp, sp.kind ≠ .sparse → P sp)
    (sparse : ∀ t es, (∀ k off sub, es.get? k = some (off, sub) → P sub) → P (.sparse t es))
    (sp : Space) : P sp := by
  induction sp using Space.rec (motive_2 := fun es => ∀ k off sub, es.get? k = some (off, sub) → P sub) with
  | dense d => exact leaf _ nofun
  | zero n => exact leaf _ nofun
  | rom d => exact leaf _ nofun
  | sparse t es ih => exact sparse t es ih
  | nil => rename_i hget; cases hget
  | cons off sub rest ihsub ihrest =>
    rename_i k o s hget
    cases k with
    | zero => cases hget; exact ihsub
    | succ k => exact ihrest k o s hget

theorem entryWrite_ok {p : Params} {off : Nat} {sub sub' : Space} {addr : Nat} {data : List Byte} :
    entryWrite p off sub addr data = .ok sub' ↔
      data.length ≤ p.maxAddr ∧ addr - off + data.length ≤ p.maxAddr
        ∧ addr - off + data.length ≤ sub.size ∧ memWrite p sub (addr - off) data = .ok sub' := by
  rw [entryWrite]
  split_ifs with hlen hend hfit
  · exact iff_of_false nofun fun ⟨h, _⟩ => by omega
  · exact iff_of_false nofun fun ⟨_, h, _⟩ => by omega
  · exact iff_of_false nofun fun ⟨_, _, h, _⟩ => by omega
  · simp only [Nat.le_of_not_lt hlen, Nat.le_of_not_lt hend, Nat.le_of_not_lt hfit, true_and]

/-- The entry that a write went to, and what it answered. -/
theorem writeEntries_ok {p : Params} {es es' : Regions} {addr : Nat} {data : List Byte}
    (h : writeEntries p es addr data = .ok es') :
    ∃ f sub', find es addr = some f ∧ entryWrite p f.offset f.sub addr data = .ok sub'
      ∧ es' = replaceSub sub' f.index es := by
  cases hfind : find es addr with
  | none => rw [writeEntries_unmapped hfind] at h; cases h
  | some f =>
    rw [writeEntries_mapped hfind] at h
    obtain ⟨sub', hwrite, rfl⟩ := Reply.map_eq_ok.mp h
    exact ⟨f, sub', rfl, hwrite, rfl⟩

/-- A write that answers OK went down through composites to a Dense store: what holds of the Dense write,
and passes from the sub-space's write to the composite's, holds of every write that answers OK. -/
theorem memWrite_induction {p : Params} {data : List Byte} {Q : Space → Nat → Space → Prop}
    (dense : ∀ d d' addr, denseWrite p d addr data = .ok d' → Q (.dense d) addr (.dense d'))
    (sparse : ∀ t es addr f sub', find es addr = some f →
      entryWrite p f.offset f.sub addr data = .ok sub' → Q f.sub (addr - f.offset) sub' →
      Q (.sparse t es) addr (.sparse t (replaceSub sub' f.index es)))
    {sp sp' : Space} {addr : Nat} (h : memWrite p sp addr data = .ok sp') : Q sp addr sp' := by
  induction sp using space_induction generalizing addr sp' with
  | leaf sp hleaf =>
    cases sp with
    | dense d =>
      obtain ⟨d', hd, rfl⟩ := Reply.map_eq_ok.mp h
      exact dense d d' addr hd
    | zero n => cases h
    | rom d => cases h
    | sparse t es => exact absurd rfl hleaf
  | sparse t es ih =>
    obtain ⟨es', hes, rfl⟩ := Reply.map_eq_ok.mp h
    obtain ⟨f, sub', hfind, hwrite, rfl⟩ := writeEntries_ok hes
    obtain ⟨_, _, _, hsub⟩ := entryWrite_ok.mp hwrite
    exact sparse t es addr f sub' hfind hwrite (ih f.index f.offset f.sub (find_some hfind).1 hsub)

/-- The write of the root is the write of its entries (R107). -/
theorem memWrite_root {p : Params} {c : Composite} {es : Regions} {addr : Nat} {data : List Byte}
    (h : writeEntries p c.entries addr data = .ok es) :
    memWrite p c.toSpace addr data = .ok (.sparse c.total es) :=
  Reply.map_eq_ok.mpr ⟨es, h, rfl⟩

theorem count_replaceSub (sub' : Space) (k : Nat) (es : Regions) :
    (replaceSub sub' k es).count = es.count := by
  match k, es with
  | _, .nil => rw [replaceSub]
  | 0, .cons _ _ _ => rfl
  | k + 1, .cons _ _ rest => simp only [replaceSub, Regions.count, count_replaceSub sub' k rest]

theorem replaceSub_replaceSub (sub' : Space) (k : Nat) (es : Regions) :
    replaceSub sub' k (replaceSub sub' k es) = replaceSub sub' k es := by
  match k, es with
  | _, .nil => rw [replaceSub, replaceSub]
  | 0, .cons _ _ _ => rfl
  | k + 1, .cons _ _ rest => simp only [replaceSub, replaceSub_replaceSub sub' k rest]

/-- An entry of the new table is an entry of the old one with the same offset and a sub-space of the same
size, if the sub-space put in has the size of the one it replaces. -/
theorem get?_of_get?_replaceSub {es : Regions} {j k off o : Nat} {sub sub' e : Space}
    (hget : es.get? k = some (off, sub)) (hsize : sub'.size = sub.size)
    (h : (replaceSub sub' k es).get? j = some (o, e)) :
    ∃ e', es.get? j = some (o, e') ∧ e'.size = e.size := by
  by_cases hjk : j = k
  · subst hjk
    rw [get?_replaceSub_self sub' hget] at h
    cases h
    exact ⟨sub, hget, hsize.symm⟩
  · rw [get?_replaceSub_of_ne sub' hjk] at h
    exact ⟨e, h, rfl⟩

theorem regions_wf_get? {p : Params} {total : Nat} {es : Regions} (h : Regions.wf p total es = true)
    {k off : Nat} {sub : Space} (hget : es.get? k = some (off, sub)) :
    sub.wf p = true ∧ off + sub.size ≤ total := by
  match es, k with
  | .nil, _ => cases hget
  | .cons o s rest, 0 =>
    cases hget
    obtain ⟨hs, hfit, _, _⟩ := regions_wf_cons.mp h
    exact ⟨hs, hfit⟩
  | .cons o s rest, k + 1 =>
    obtain ⟨_, _, _, hrest⟩ := regions_wf_cons.mp h
    exact regions_wf_get? hrest hget

/-- A sub-space of the same size in the place of an entry's keeps the table well formed: containment and
order are of offsets and sizes alone. -/
theorem regions_wf_replaceSub {p : Params} {total : Nat} {es : Regions}
    (h : Regions.wf p total es = true) {k off : Nat} {sub sub' : Space}
    (hget : es.get? k = some (off, sub)) (hsize : sub'.size = sub.size) (hsub : sub'.wf p = true) :
    Regions.wf p total (replaceSub sub' k es) = true := by
  match es, k with
  | .nil, _ => cases hget
  | .cons o s rest, 0 =>
    cases hget
    obtain ⟨_, hfit, later, hrest⟩ := regions_wf_cons.mp h
    rw [← hsize] at hfit later
    exact regions_wf_cons.mpr ⟨hsub, hfit, later, hrest⟩
  | .cons o s rest, k + 1 =>
    obtain ⟨hs, hfit, later, hrest⟩ := regions_wf_cons.mp h
    refine regions_wf_cons.mpr ⟨hs, hfit, fun j o' e hj => ?_, regions_wf_replaceSub hrest hget hsize hsub⟩
    obtain ⟨e', hj', he⟩ := get?_of_get?_replaceSub (es := rest) hget hsize hj
    rw [← he]
    exact later j o' e' hj'

/-- The lookup in the new table finds what it found in the old one, or the new sub-space in the place of the
one it replaces. -/
theorem find_replaceSub {es : Regions} {k off : Nat} {sub sub' : Space}
    (hget : es.get? k = some (off, sub)) (hsize : sub'.size = sub.size) (a : Nat) :
    find (replaceSub sub' k es) a = find es a
      ∨ (find es a = some ⟨k, off, sub⟩ ∧ find (replaceSub sub' k es) a = some ⟨k, off, sub'⟩) := by
  match es, k with
  | .nil, _ => cases hget
  | .cons o s rest, 0 =>
    cases hget
    have same_range : covers off sub' a = covers off sub a := by rw [covers, covers, hsize]
    simp only [replaceSub, find, same_range]
    by_cases hc : covers off sub a = true
    · exact .inr ⟨if_pos hc, if_pos hc⟩
    · exact .inl (by rw [if_neg hc, if_neg hc])
  | .cons o s rest, k + 1 =>
    simp only [replaceSub, find]
    by_cases hc : covers o s a = true
    · exact .inl (by rw [if_pos hc, if_pos hc])
    · rw [if_neg hc, if_neg hc]
      rcases find_replaceSub (es := rest) hget hsize a with hsame | ⟨hold, hnew⟩
      · exact .inl (by rw [hsame])
      · exact .inr (by rw [hold, hnew]; exact ⟨rfl, rfl⟩)

theorem find_replaceSub_self {es : Regions} {addr : Nat} {f : Found} {sub' : Space}
    (hfind : find es addr = some f) (hsize : sub'.size = f.sub.size) :
    find (replaceSub sub' f.index es) addr = some { f with sub := sub' } := by
  obtain ⟨hget, hcov⟩ := find_some hfind
  rcases find_replaceSub hget hsize addr with hsame | ⟨_, hnew⟩
  · have hget' := (find_some (hsame.trans hfind)).1
    rw [get?_replaceSub_self sub' hget] at hget'
    cases hget'
    exact hsame.trans hfind
  · exact hnew

end Sys2Proof.Machine
end

section
/-! WRITE keeps the invariants, the map and every byte outside its span (20_memory.md R53, R54, R63). -/

namespace Sys2Proof.Machine

theorem dense_wf_iff {p : Params} {d : Dense} :
    d.wf p = true ↔ d.size ≤ p.maxAddr ∧ Memory.wf d.bytes = true ∧ ∀ c ∈ d.bytes, c.1 < d.size := by
  simp [Dense.wf, and_assoc]

theorem sparse_wf_iff {p : Params} {t : Nat} {es : Regions} :
    (Space.sparse t es).wf p = true ↔
      t ≤ p.maxAddr ∧ p.tableFits es.count = true ∧ Regions.wf p t es = true := by
  simp [Space.wf, and_assoc]

theorem denseWrite_wf {p q : Params} {d d' : Dense} {addr : Nat} {data : List Byte}
    (h : denseWrite p d addr data = .ok d') (hd : d.wf q = true) : d'.wf q = true := by
  obtain ⟨_, _, hfit, rfl⟩ := denseWrite_ok.mp h
  obtain ⟨hmax, hm, hlt⟩ := dense_wf_iff.mp hd
  refine dense_wf_iff.mpr ⟨hmax, writeBytes_wf hm, fun c hc => ?_⟩
  rcases mem_writeBytes hc with hc | ⟨_, hc⟩
  · exact hlt c hc
  · exact Nat.lt_of_lt_of_le hc hfit

/-- WRITE keeps the invariants of every level (R43). -/
theorem memWrite_wf {p q : Params} {sp sp' : Space} {addr : Nat} {data : List Byte}
    (h : memWrite p sp addr data = .ok sp') : sp.wf q = true → sp'.wf q = true := by
  refine memWrite_induction (Q := fun sp _ sp' => sp.wf q = true → sp'.wf q = true) ?_ ?_ h
  · exact fun d d' addr hd => denseWrite_wf hd
  · intro t es addr f sub' hfind hwrite ih hwf
    obtain ⟨_, _, _, hsub⟩ := entryWrite_ok.mp hwrite
    obtain ⟨hmax, hfits, hes⟩ := sparse_wf_iff.mp hwf
    have hget := (find_some hfind).1
    refine sparse_wf_iff.mpr ⟨hmax, by rwa [count_replaceSub], ?_⟩
    exact regions_wf_replaceSub hes hget (memWrite_size hsub).1 (ih (regions_wf_get? hes hget).1)

/-- Byte `x` of a composite after a write to one entry: as before, or as that entry's write left it. -/
theorem byteAt_replaceSub {t addr : Nat} {es : Regions} {f : Found} {sub' : Space}
    (hfind : find es addr = some f) (hsize : sub'.size = f.sub.size) (x : Nat)
    (h : f.offset ≤ x → byteAt sub' (x - f.offset) = byteAt f.sub (x - f.offset)) :
    byteAt (.sparse t (replaceSub sub' f.index es)) x = byteAt (.sparse t es) x := by
  rw [byteAt_sparse, byteAt_sparse]
  rcases find_replaceSub (find_some hfind).1 hsize x with hsame | ⟨hold, hnew⟩
  · rw [hsame]
  · have hcov := covers_iff.mp (find_some hold).2
    rw [hold, hnew]
    exact h hcov.1

theorem readBytes_writeBytes {m : Memory} (a : Nat) (data : List Byte) (hm : Memory.wf m = true) :
    readBytes (writeBytes m a data) a data.length = data := by
  refine List.ext_getElem (readBytes_length _ _ _) fun i hi hi' => ?_
  rw [readBytes_get, readByte_writeBytes_inside m a data hm i hi']

theorem memRead_memWrite {p : Params} {sp sp' : Space} {addr : Nat} {data : List Byte}
    (h : memWrite p sp addr data = .ok sp') :
    sp.wf p.uncapped = true → memRead sp' addr (addr + data.length) = .ok data := by
  refine memWrite_induction
    (Q := fun sp addr sp' => sp.wf p.uncapped = true → memRead sp' addr (addr + data.length) = .ok data)
    ?_ ?_ h
  · intro d d' addr hd hwf
    obtain ⟨_, _, hfit, rfl⟩ := denseWrite_ok.mp hd
    obtain ⟨_, hm, _⟩ := dense_wf_iff.mp hwf
    have inside := memRead_dense (d := { d with bytes := writeBytes d.bytes addr data })
      (Nat.le_add_right addr data.length) hfit
    rw [inside, Nat.add_sub_cancel_left]
    exact congrArg Reply.ok (readBytes_writeBytes addr data hm)
  · intro t es addr f sub' hfind hwrite ih hwf
    obtain ⟨_, _, hfit, hsub⟩ := entryWrite_ok.mp hwrite
    obtain ⟨_, _, hes⟩ := sparse_wf_iff.mp hwf
    obtain ⟨hget, hcov⟩ := find_some hfind
    have hlo := (covers_iff.mp hcov).1
    have hsize := (memWrite_size hsub).1
    have hread := ih (regions_wf_get? hes hget).1
    rw [show addr - f.offset + data.length = addr + data.length - f.offset by omega] at hread
    rw [memRead_sparse_inside (find_replaceSub_self hfind hsize) (Nat.le_add_right _ _) (by simp only; omega)]
    exact hread

/-- An address outside the span of a write reads as before (R63). -/
theorem byteAt_memWrite_outside {p : Params} {sp sp' : Space} {addr : Nat} {data : List Byte}
    (h : memWrite p sp addr data = .ok sp') :
    ∀ x, x < addr ∨ addr + data.length ≤ x → byteAt sp' x = byteAt sp x := by
  refine memWrite_induction (Q := fun sp addr sp' =>
    ∀ x, x < addr ∨ addr + data.length ≤ x → byteAt sp' x = byteAt sp x) ?_ ?_ h
  · intro d d' addr hd x hx
    obtain ⟨_, _, _, rfl⟩ := denseWrite_ok.mp hd
    have same := readByte_writeBytes_outside d.bytes addr x data hx
    simp only [byteAt, memRead, denseRead, Nat.add_sub_cancel_left, readBytes, same]
  · intro t es addr f sub' hfind hwrite ih x hx
    obtain ⟨_, _, _, hsub⟩ := entryWrite_ok.mp hwrite
    have hlo := (covers_iff.mp (find_some hfind).2).1
    exact byteAt_replaceSub hfind (memWrite_size hsub).1 x fun hle => ih _ (by omega)

/-- Settles O25: the three facts of a write that answers OK, at any depth. -/
theorem readAfterWriteThroughNesting : Obligations.ReadAfterWriteThroughNesting :=
  fun _ _ _ _ _ hwf h =>
    ⟨memRead_memWrite h hwf, byteAt_memWrite_outside h, (memWrite_size h).1⟩

/-- The same write of the space that a write has left answers that space. -/
theorem memWrite_memWrite {p q : Params} {sp sp' : Space} {addr : Nat} {data : List Byte}
    (h : memWrite p sp addr data = .ok sp') :
    sp.wf q = true → memWrite p sp' addr data = .ok sp' := by
  refine memWrite_induction
    (Q := fun sp addr sp' => sp.wf q = true → memWrite p sp' addr data = .ok sp') ?_ ?_ h
  · intro d d' addr hd hwf
    obtain ⟨hlen, hend, hfit, rfl⟩ := denseWrite_ok.mp hd
    obtain ⟨_, hm, _⟩ := dense_wf_iff.mp hwf
    refine Reply.map_eq_ok.mpr ⟨_, denseWrite_ok.mpr ⟨hlen, hend, hfit, ?_⟩, rfl⟩
    rw [writeBytes_writeBytes addr data hm]
  · intro t es addr f sub' hfind hwrite ih hwf
    obtain ⟨hlen, hend, hfit, hsub⟩ := entryWrite_ok.mp hwrite
    obtain ⟨_, _, hes⟩ := sparse_wf_iff.mp hwf
    have hsize := (memWrite_size hsub).1
    have again : entryWrite p f.offset sub' addr data = .ok sub' :=
      entryWrite_ok.mpr ⟨hlen, hend, hsize ▸ hfit, ih (regions_wf_get? hes (find_some hfind).1).1⟩
    rw [memWrite_sparse_mapped (find_replaceSub_self hfind hsize), again, Reply.map_ok,
      replaceSub_replaceSub]

/-- A WRITE that answers OK put the root's new table in the state. -/
theorem exec_write_ok {s t : State} {addr : Nat} {data : List Byte} {v : Value}
    (h : exec (.write addr data) s = .next t) (hv : t.response = some (.ok v)) :
    s.stopped = none ∧ ∃ es, writeEntries Config.params s.root.entries addr data = .ok es
      ∧ t = (s.setRoot { s.root with entries := es }).respond (.ok .unit) := by
  obtain ⟨hrun, rfl⟩ := portCommand_next h
  obtain ⟨u, hok⟩ := deliver_response_eq_ok hv
  obtain ⟨es, hes, heq⟩ := Reply.map_eq_ok.mp hok
  cases heq
  exact ⟨hrun, es, hes, by rw [hok, deliver_ok]⟩

/-- The command stores what the write of the root's table answers. -/
theorem exec_write_stores {s : State} {addr : Nat} {data : List Byte} {es : Regions}
    (hrun : s.stopped = none) (h : writeEntries Config.params s.root.entries addr data = .ok es) :
    exec (.write addr data) s
      = .next ((s.setRoot { s.root with entries := es }).respond (.ok .unit)) := by
  rw [exec_write addr data hrun, writeRoot, h]
  rfl

/-- Settles O26: the table that the second write answers is the one it was given. -/
theorem repeatedWriteIsIdempotent : Obligations.RepeatedWriteIsIdempotent := by
  intro s t addr data hwf h hv
  obtain ⟨hrun, es, hes, rfl⟩ := exec_write_ok h hv
  obtain ⟨es', hes', heq⟩ := Reply.map_eq_ok.mp (memWrite_memWrite (memWrite_root hes) hwf)
  cases heq
  exact exec_write_stores hrun hes'

end Sys2Proof.Machine
end

section
/-! What a constructor builds (40_router.md R123 to R129). -/

namespace Sys2Proof.Machine

theorem hostRun_response {s t : State} {r : Reply Value} {v : Value} (h : hostRun s r = .next t)
    (hv : t.response = some (.ok v)) : r = .ok v := by
  rcases hostRun_next h with ⟨_, rfl⟩ | ⟨_, rfl⟩
  · obtain ⟨_, hok⟩ := deliver_response_eq_ok hv
    obtain ⟨_, hr, heq⟩ := Reply.map_eq_ok.mp hok
    cases heq
    exact hr
  · exact Option.some.inj hv

theorem isAddr_iff {p : Params} {a : Nat} : p.isAddr a = true ↔ a ≤ p.maxAddr := decide_eq_true_iff

theorem empty_dense_wf {p : Params} {n : Nat} (h : n ≤ p.maxAddr) : Dense.wf p ⟨n, []⟩ = true :=
  dense_wf_iff.mpr ⟨h, rfl, nofun⟩

/-- The response of each constructor but SPARSE_ADD is its Space value. -/
theorem constructor_builds {i : Instr} {s t : State} {sp : Space} (hi : writes i = .host)
    (hwf : i.wf Config.params = true) (h : exec i s = .next t)
    (hv : t.response = some (.ok (.space sp))) : sp.built Config.params = true := by
  cases i with
  | newDense n =>
    cases hostRun_response h hv
    exact built_iff.mpr ⟨empty_dense_wf (isAddr_iff.mp hwf), rfl⟩
  | newZero n =>
    cases hostRun_response h hv
    exact built_iff.mpr ⟨hwf, rfl⟩
  | newRom n =>
    cases hostRun_response h hv
    exact built_iff.mpr ⟨empty_dense_wf (isAddr_iff.mp hwf), rfl⟩
  | romLoad rom addr data =>
    obtain ⟨d, hd, heq⟩ := Reply.map_eq_ok.mp (hostRun_response h hv)
    cases heq
    rw [Instr.wf, Bool.and_eq_true] at hwf
    exact built_iff.mpr ⟨denseWrite_wf hd hwf.1, rfl⟩
  | newSparse total =>
    cases hostRun_response h hv
    exact built_iff.mpr ⟨sparse_wf_iff.mpr ⟨isAddr_iff.mp hwf, tableFits_zero _, rfl⟩, rfl⟩
  | sparseAdd parent off sub =>
    obtain ⟨_, _, heq⟩ := Reply.map_eq_ok.mp (hostRun_response h hv)
    cases heq
  | size | read | find | peekBit | isAligned | bitsLeft | atLeast | decode | hdrFmt000 | hdrFmt001
  | hdrFmt010 | hdrFmt011 | hdrFmt100 | hdrFmt101 | hdrFmt110 | hdrFmt111 | mov | write | addSpace
  | scanLoad | nextBit | collect | collectType => cases hi

/-- Settles O17: the empty stores are, a loaded ROM is by the Dense write, and SPARSE_ADD's composite by the
registration. -/
theorem constructorsBuildWellFormedSpaces : Obligations.ConstructorsBuildWellFormedSpaces := by
  refine ⟨fun i s t hi hwf h sp hv => constructor_builds hi hwf h hv, fun p s parent off sub =>
    ⟨fun sp k h => ?_, exec_sparseAdd parent off sub s⟩⟩
  obtain ⟨⟨c, k'⟩, hreg, heq⟩ := Reply.map_eq_ok.mp h
  cases heq
  exact ⟨registerSpace_wf hreg, registerSpace_unwritten hreg⟩

/-- Settles O37: ROM_LOAD is the Dense write of the ROM's inner value. -/
theorem romLoadWritesTheImage : Obligations.RomLoadWritesTheImage := by
  intro s rom addr data hwf
  obtain ⟨_, hm, _⟩ := dense_wf_iff.mp hwf
  have run : exec (.romLoad rom addr data) s = hostRun s (romLoad Config.params rom addr data) := rfl
  have wraps : (data.length > Config.params.maxAddr ∨ addr + data.length > Config.params.maxAddr)
      ↔ addr + data.length > Config.params.maxAddr := by omega
  rw [run, romLoad, denseWrite_eq]
  simp only [wraps]
  split_ifs with hend hpast
  · exact hostRun_err s _
  · exact hostRun_err s _
  · exact ⟨_, hostRun_ok s _, rfl, readByte_writeBytes_inside _ _ _ hm,
      fun x => readByte_writeBytes_outside _ _ x _⟩

end Sys2Proof.Machine
end

section
/-! The state invariant (10_state.md R43). -/

namespace Sys2Proof.Machine

/-- An instruction that can be supplied keeps the root's invariants. -/
theorem Effect.root_wf {i : Instr} {s t : State} (h : Effect i s t) (hi : i.wf Config.params = true)
    (hroot : s.root.wf Config.params = true) : t.root.wf Config.params = true := by
  cases h with
  | stores hes => exact memWrite_wf (memWrite_root (c := s.root) hes) hroot
  | registers hreg =>
    rw [Instr.wf, Bool.and_eq_true] at hi
    exact registerSpace_wf hreg hroot (built_iff.mp hi.2).1
  | answers | refuses | loads | takes => exact hroot

/-- Every instruction keeps the cursor within its window. -/
theorem Effect.scan_le {i : Instr} {s t : State} (h : Effect i s t) (hscan : s.scan.pos ≤ s.scan.bits) :
    t.scan.pos ≤ t.scan.bits := by
  cases h with
  | loads w => exact Nat.zero_le _
  | takes _ hc => exact hc.pos_le hscan
  | answers | refuses | stores | registers => exact hscan

/-- Settles O16: by what the step was. -/
theorem stepKeepsTheInvariant : Obligations.StepKeepsTheInvariant := by
  rintro s t ⟨hroot, hscan, hinbox⟩ h
  rcases step_next h with
    ⟨_, rfl⟩ | ⟨rest, hin, rfl⟩ | ⟨r, rest, i, hin, hwf, heffect⟩ | ⟨r, rest, hin, rfl⟩
  · exact ⟨hroot, hscan, hinbox⟩
  all_goals
    rw [hin, List.all_cons, Bool.and_eq_true] at hinbox
    obtain ⟨hinput, hrest⟩ := hinbox
  · exact ⟨reset_root_wf, Nat.zero_le _, hrest⟩
  · exact ⟨heffect.root_wf (hwf hinput) hroot, heffect.scan_le hscan, by rwa [heffect.inbox_eq]⟩
  · exact ⟨hroot, hscan, hrest⟩

end Sys2Proof.Machine
end

section
/-! READ of a span and of its bytes, and the errors that READ and WRITE of the root cannot give (20_memory.md
R45, 40_router.md R98, R108). -/

namespace Sys2Proof.Machine

/-- A read that answers OK is of a range that is not reversed. -/
theorem le_of_memRead_ok {sp : Space} {start stop : Nat} {data : List Byte}
    (h : memRead sp start stop = .ok data) : start ≤ stop := by
  by_contra hlt
  rw [memRead_reversed (Nat.lt_of_not_le hlt)] at h
  cases h

theorem byteAt_leaf {sp : Space} {a : Nat} (hleaf : sp.kind ≠ .sparse) (h : a < sp.size) :
    byteAt sp a = .ok [leafByte sp a] := by
  rw [byteAt, memRead_leaf hleaf (Nat.le_add_right a 1) h, Nat.add_sub_cancel_left]
  rfl

/-- What a composite's read that answers OK read: a span inside one entry. -/
theorem memRead_sparse_ok {t start stop : Nat} {es : Regions} {data : List Byte}
    (h : memRead (.sparse t es) start stop = .ok data) :
    ∃ f, find es start = some f ∧ stop ≤ f.offset + f.sub.size
      ∧ memRead f.sub (start - f.offset) (stop - f.offset) = .ok data := by
  rw [memRead_sparse (le_of_memRead_ok h)] at h
  cases hfind : find es start with
  | none => simp only [hfind] at h; cases h
  | some f =>
    simp only [hfind] at h
    split at h
    · cases h
    · exact ⟨f, rfl, by omega, h⟩

/-- In a well-formed table every address of an entry is found there. -/
theorem find_of_covers {p : Params} {total a b : Nat} {es : Regions} {f : Found}
    (h : Regions.wf p total es = true) (hfind : find es a = some f)
    (hcov : covers f.offset f.sub b = true) : find es b = some f :=
  (find_eq_some_iff h).mpr ⟨(find_some hfind).1, hcov⟩

/-- Settles O23: a leaf reads its bytes; in a composite every address of the span is found in the entry of
the first, since the entries are disjoint. -/
theorem readIsBytewise : Obligations.ReadIsBytewise := by
  intro p sp
  induction sp using space_induction with
  | leaf sp hleaf =>
    intro start stop data _ h
    have hle := le_of_memRead_ok h
    by_cases hfit : stop ≤ sp.size
    · rw [memRead_leaf hleaf hle hfit] at h
      cases h
      refine ⟨by simp, fun i hi => ?_⟩
      have inside : i < stop - start := by simpa using hi
      rw [byteAt_leaf hleaf (by omega)]
      simp
    · rw [memRead_leaf_outOfBounds hleaf hle (Nat.lt_of_not_le hfit)] at h
      cases h
  | sparse t es ih =>
    intro start stop data hwf h
    obtain ⟨f, hfind, hfit, hsub⟩ := memRead_sparse_ok h
    obtain ⟨_, _, hes⟩ := sparse_wf_iff.mp hwf
    obtain ⟨hget, hcov⟩ := find_some hfind
    have hlo := (covers_iff.mp hcov).1
    obtain ⟨hlen, hbytes⟩ := ih _ _ _ hget _ _ data (regions_wf_get? hes hget).1 hsub
    refine ⟨by omega, fun i hi => ?_⟩
    have found : find es (start + i) = some f :=
      find_of_covers hes hfind (covers_iff.mpr ⟨by omega, by omega⟩)
    rw [byteAt_sparse, found, ← hbytes i hi]
    exact congrArg (byteAt f.sub) (by omega)

/-- Settles O21: the span is inside the entry, and the entry reads its bytes. -/
theorem readAnswersTheLeafBytes : Obligations.ReadAnswersTheLeafBytes := by
  intro s start stop f hrun hfind hleaf hle hfit
  have hlo := (covers_iff.mp (find_some hfind).2).1
  have span : stop - f.offset - (start - f.offset) = stop - start := by omega
  rw [exec_read start stop hrun, Composite.toSpace, memRead_sparse_inside hfind hle hfit,
    memRead_leaf hleaf (by omega) (by omega), span]
  rfl

/-- A leaf store reports OutOfBounds only past its size, and a composite never: its check of the fit comes
first (R98, R108). -/
theorem memRead_ne_outOfBounds {sp : Space} {start stop : Nat} (h : stop ≤ sp.size ∨ sp.kind = .sparse) :
    memRead sp start stop ≠ .err .outOfBounds := by
  induction sp using space_induction generalizing start stop with
  | leaf sp hleaf =>
    by_cases hle : start ≤ stop
    · rw [memRead_leaf hleaf hle (h.resolve_right hleaf)]
      exact nofun
    · rw [memRead_reversed (Nat.lt_of_not_le hle)]
      exact nofun
  | sparse t es ih =>
    by_cases hle : start ≤ stop
    · rw [memRead_sparse hle]
      cases hfind : find es start with
      | none => exact nofun
      | some f =>
        simp only
        split
        next => exact nofun
        next hfit => exact ih _ _ _ (find_some hfind).1 (.inl (Nat.le_of_not_lt hfit))
    · rw [memRead_reversed (Nat.lt_of_not_le hle)]
      exact nofun

theorem memWrite_ne_outOfBounds {p : Params} {sp : Space} {addr : Nat} {data : List Byte}
    (h : addr + data.length ≤ sp.size ∨ sp.kind = .sparse) :
    memWrite p sp addr data ≠ .err .outOfBounds := by
  induction sp using space_induction generalizing addr with
  | leaf sp hleaf =>
    have hfit := h.resolve_right hleaf
    cases sp with
    | dense d =>
      have hfit : addr + data.length ≤ d.size := hfit
      rw [memWrite, Ne, Reply.map_eq_err, denseWrite_eq, if_neg (Nat.not_lt.mpr hfit)]
      split <;> exact nofun
    | zero n => exact nofun
    | rom d => exact nofun
    | sparse t es => exact absurd rfl hleaf
  | sparse t es ih =>
    cases hfind : find es addr with
    | none =>
      rw [memWrite_sparse_unmapped hfind]
      exact nofun
    | some f =>
      rw [memWrite_sparse_mapped hfind, Ne, Reply.map_eq_err, entryWrite]
      split_ifs with hlen hend hfit
      · exact nofun
      · exact nofun
      · exact nofun
      · exact ih _ _ _ (find_some hfind).1 (.inl (Nat.le_of_not_lt hfit))

theorem writeEntries_ne_outOfBounds (p : Params) (es : Regions) (addr : Nat) (data : List Byte) :
    writeEntries p es addr data ≠ .err .outOfBounds := fun h =>
  memWrite_ne_outOfBounds (p := p) (sp := .sparse 0 es) (.inr rfl) (Reply.map_eq_err.mpr h)

theorem registerSpace_ne_outOfBounds (p : Params) (c : Composite) (off : Nat) (sub : Space) :
    registerSpace p c off sub ≠ .err .outOfBounds := by
  rw [registerSpace, checkedAdd]
  split
  next =>
    rw [Reply.bind_ok]
    split_ifs <;> exact nofun
  next => exact nofun

theorem loadWindow_ne_outOfBounds (p : Params) (w : List Byte) (s : State) :
    loadWindow p w s ≠ .err .outOfBounds := by
  rw [loadWindow]
  split <;> exact nofun

theorem portCommand_err {s t : State} {r : Reply (Value × State)} {k : ErrKind}
    (h : portCommand s r = .next t) (hk : t.response = some (.err k)) : r = .err k := by
  obtain ⟨_, rfl⟩ := portCommand_next h
  exact deliver_response_eq_err hk

theorem portQuery_err {s t : State} {r : Reply Value} {k : ErrKind}
    (h : portQuery s r = .next t) (hk : t.response = some (.err k)) : r = .err k :=
  Reply.map_eq_err.mp (portCommand_err h hk)

theorem hostRun_response_err {s t : State} {r : Reply Value} {k : ErrKind}
    (h : hostRun s r = .next t) (hk : t.response = some (.err k)) : r = .err k := by
  rcases hostRun_next h with ⟨_, rfl⟩ | ⟨_, rfl⟩
  · exact Reply.map_eq_err.mp (deliver_response_eq_err hk)
  · exact Option.some.inj hk

/-- Settles O30: no other instruction's outcome is that error. -/
theorem outOfBoundsOnlyFromRomLoad : Obligations.OutOfBoundsOnlyFromRomLoad := by
  intro i s t h hk
  cases i with
  | romLoad rom addr data => exact ⟨rom, addr, data, rfl⟩
  | size | find | isAligned | bitsLeft | atLeast => cases portQuery_err h hk
  | newDense | newZero | newRom | newSparse => cases hostRun_response_err h hk
  | read start stop =>
    exact absurd (Reply.map_eq_err.mp (portQuery_err h hk)) (memRead_ne_outOfBounds (.inr rfl))
  | peekBit => exact absurd (Reply.map_eq_err.mp (portQuery_err h hk)) (peekBit_regular _).2
  | decode | hdrFmt000 | hdrFmt001 | hdrFmt010 | hdrFmt011 | hdrFmt100 | hdrFmt101 | hdrFmt110
  | hdrFmt111 | mov =>
    exact absurd (Reply.map_eq_err.mp (portQuery_err h hk)) (decodeWindow_regular _ _).2
  | write addr data =>
    exact absurd (Reply.map_eq_err.mp (portCommand_err h hk)) (writeEntries_ne_outOfBounds _ _ _ _)
  | addSpace off sp =>
    exact absurd (Reply.map_eq_err.mp (portCommand_err h hk)) (registerSpace_ne_outOfBounds _ _ _ _)
  | scanLoad w => exact absurd (portCommand_err h hk) (loadWindow_ne_outOfBounds _ _ _)
  | nextBit =>
    exact absurd (Reply.map_eq_err.mp (Reply.map_eq_err.mp (portCommand_err h hk)))
      (peekBit_regular _).2
  | collect | collectType =>
    exact absurd (Reply.map_eq_err.mp (portCommand_err h hk)) (collect_regular _ _ _).2
  | sparseAdd parent off sub =>
    exact absurd (Reply.map_eq_err.mp (hostRun_response_err h hk)) (registerSpace_ne_outOfBounds _ _ _ _)

/-- The lookup after a write to one entry reports what it reported (40_router.md R113). -/
theorem findValue_replaceSub {es : Regions} {k off : Nat} {sub sub' : Space}
    (hget : es.get? k = some (off, sub)) (hsize : sub'.size = sub.size) (hkind : sub'.kind = sub.kind)
    (x : Nat) : findValue (replaceSub sub' k es) x = findValue es x := by
  rcases find_replaceSub hget hsize x with hsame | ⟨hold, hnew⟩
  · rw [findValue, findValue, hsame]
  · rw [findValue, findValue, hold, hnew]
    simp only [hsize, hkind]

/-- A Dense store whose size is an Address takes every write that fits (R102). -/
theorem entryWrite_dense {p : Params} {off addr : Nat} {d : Dense} {data : List Byte}
    (hmax : d.size ≤ p.maxAddr) (hfit : addr - off + data.length ≤ d.size) :
    ∃ d' : Dense, d'.size = d.size ∧ entryWrite p off (.dense d) addr data = .ok (.dense d') := by
  have hend := hfit.trans hmax
  refine ⟨{ d with bytes := writeBytes d.bytes (addr - off) data }, rfl, entryWrite_ok.mpr ?_⟩
  exact ⟨by omega, hend, hfit, Reply.map_eq_ok.mpr ⟨_, denseWrite_ok.mpr ⟨by omega, hend, hfit, rfl⟩, rfl⟩⟩

/-- Settles O24: the store takes the data, and the reads are those of a write that answers OK. -/
theorem writeToADenseStoreCompletes : Obligations.WriteToADenseStoreCompletes := by
  intro s addr data f d hwf hrun hfind hdense hfit
  obtain ⟨hget, hcov⟩ := find_some hfind
  have hlo := (covers_iff.mp hcov).1
  rw [hdense] at hget
  have hd := (regions_wf_get? (regions_wf_of_composite_wf hwf) hget).1
  have hmax : d.size ≤ Config.params.maxAddr := (dense_wf_iff.mp hd).1
  obtain ⟨d', hsize, entry⟩ := entryWrite_dense (off := f.offset) (addr := addr) (data := data) hmax
    (by omega)
  have table : writeEntries Config.params s.root.entries addr data
      = .ok (replaceSub (.dense d') f.index s.root.entries) := by
    rw [writeEntries_mapped hfind, hdense, entry, Reply.map_ok]
  have root := memWrite_root table
  have written := memRead_memWrite root hwf
  refine ⟨{ s.root with entries := _ }, exec_write_stores hrun table, rfl, fun i hi => ?_,
    byteAt_memWrite_outside root, findValue_replaceSub hget hsize rfl⟩
  exact (readIsBytewise _ _ _ _ _ (memWrite_wf root hwf) written).2 i hi

end Sys2Proof.Machine
end

section
/-! The map of the root: what an address belongs to (20_memory.md R61, R63, 40_router.md R127). -/

namespace Sys2Proof.Machine

/-- The entry that an address belongs to, without its index, which a registration may change. -/
def entryAt (es : Regions) (a : Nat) : Option (Nat × Space) := (find es a).map fun f => (f.offset, f.sub)

theorem entryAt_cons (off : Nat) (sub : Space) (rest : Regions) (a : Nat) :
    entryAt (.cons off sub rest) a = if covers off sub a then some (off, sub) else entryAt rest a := by
  rw [entryAt, find, entryAt]
  split
  · rfl
  · rw [Option.map_map]
    rfl

theorem leafKindIn_eq (es : Regions) (a : Nat) :
    leafKindIn es a = (entryAt es a).bind fun e => leafKindAt e.2 (a - e.1) := by
  match es with
  | .nil => rfl
  | .cons off sub rest =>
    rw [leafKindIn, entryAt_cons, leafKindIn_eq rest]
    split <;> rfl

theorem byteAt_sparse_entryAt (t : Nat) (es : Regions) (a : Nat) :
    byteAt (.sparse t es) a =
      match entryAt es a with
      | none => .err .invalidAccess
      | some (off, sub) => byteAt sub (a - off) := by
  rw [byteAt_sparse, entryAt]
  cases find es a <;> rfl

theorem entryAt_eq_none {es : Regions} {a : Nat}
    (h : ∀ k o e, es.get? k = some (o, e) → covers o e a = false) : entryAt es a = none := by
  rw [entryAt, find_eq_none_iff.mpr h, Option.map_none]

/-- The entries of an address after an insertion, where no old entry covers an address of the new one. -/
theorem entryAt_insertAt {off a : Nat} {sub : Space} {k : Nat} {es : Regions}
    (h : covers off sub a = true → ∀ j o e, es.get? j = some (o, e) → covers o e a = false) :
    entryAt (insertAt off sub k es) a = if covers off sub a then some (off, sub) else entryAt es a := by
  match k, es with
  | 0, _ => exact entryAt_cons off sub _ a
  | _ + 1, .nil => exact entryAt_cons off sub .nil a
  | k + 1, .cons o s rest =>
    have rest_apart : covers off sub a = true → ∀ j o e, rest.get? j = some (o, e) → covers o e a = false :=
      fun hc j => h hc (j + 1)
    rw [insertAt, entryAt_cons, entryAt_insertAt rest_apart, entryAt_cons]
    by_cases hnew : covers off sub a = true
    · simp [hnew, h hnew 0 o s rfl]
    · simp [hnew]

/-- What a registration makes of each address: the space added covers some that nothing covered, and the
others stay with their entries. -/
theorem entryAt_registerSpace {p : Params} {parent c : Composite} {off k : Nat} {sub : Space}
    (h : registerSpace p parent off sub = .ok (c, k)) (a : Nat) :
    (covers off sub a = true ∧ entryAt parent.entries a = none ∧ entryAt c.entries a = some (off, sub))
      ∨ entryAt c.entries a = entryAt parent.entries a := by
  obtain ⟨_, _, hapart, _, rfl, rfl⟩ := registerSpace_ok.mp h
  have uncovered : covers off sub a = true →
      ∀ j o e, parent.entries.get? j = some (o, e) → covers o e a = false := by
    intro hnew j o e hget
    refine Bool.eq_false_iff.mpr fun hold => ?_
    have hover := overlapsAny_false.mp hapart j o e hget
    rw [overlaps_of_common (covers_iff.mp hnew) (covers_iff.mp hold)] at hover
    cases hover
  rw [entryAt_insertAt uncovered]
  by_cases hnew : covers off sub a = true
  · exact .inl ⟨hnew, entryAt_eq_none (uncovered hnew), if_pos hnew⟩
  · exact .inr (if_neg hnew)

/-- An address that belongs to a store stays with it under a registration, and reads as before. -/
theorem registerSpace_keeps {p : Params} {parent c : Composite} {off k : Nat} {sub : Space}
    (h : registerSpace p parent off sub = .ok (c, k)) {a : Nat} {kind : Kind}
    (hk : leafKindAt parent.toSpace a = some kind) :
    leafKindAt c.toSpace a = some kind ∧ byteAt c.toSpace a = byteAt parent.toSpace a := by
  simp only [Composite.toSpace, leafKindAt, leafKindIn_eq, byteAt_sparse_entryAt] at hk ⊢
  rcases entryAt_registerSpace h a with ⟨_, hnone, _⟩ | hsame
  · rw [hnone] at hk
    cases hk
  · rw [hsame]
    exact ⟨hk, rfl⟩

/-- An address that a registration maps belongs to the space added. -/
theorem registerSpace_maps {p : Params} {parent c : Composite} {off k : Nat} {sub : Space}
    (h : registerSpace p parent off sub = .ok (c, k)) {a : Nat} {kind : Kind}
    (hold : leafKindAt parent.toSpace a = none) (hnew : leafKindAt c.toSpace a = some kind) :
    off ≤ a ∧ leafKindAt sub (a - off) = some kind ∧ byteAt c.toSpace a = byteAt sub (a - off) := by
  simp only [Composite.toSpace, leafKindAt, leafKindIn_eq, byteAt_sparse_entryAt] at hold hnew ⊢
  rcases entryAt_registerSpace h a with ⟨hcov, _, hentry⟩ | hsame
  · rw [hentry] at hnew ⊢
    exact ⟨(covers_iff.mp hcov).1, hnew, rfl⟩
  · rw [hsame, hold] at hnew
    cases hnew

/-- A write leaves every address with its kind of store, and every byte of a ROM: it stores into a Dense
store alone (R61, R127). -/
theorem memWrite_keeps {p : Params} {sp sp' : Space} {addr : Nat} {data : List Byte}
    (h : memWrite p sp addr data = .ok sp') : ∀ a, leafKindAt sp' a = leafKindAt sp a
      ∧ (leafKindAt sp a = some .rom → byteAt sp' a = byteAt sp a) := by
  refine memWrite_induction (Q := fun sp _ sp' => ∀ a, leafKindAt sp' a = leafKindAt sp a
    ∧ (leafKindAt sp a = some .rom → byteAt sp' a = byteAt sp a)) ?_ ?_ h
  · intro d d' addr hd a
    obtain ⟨_, _, _, rfl⟩ := denseWrite_ok.mp hd
    refine ⟨rfl, fun hrom => ?_⟩
    rw [leafKindAt] at hrom
    split at hrom <;> cases hrom
  · intro t es addr f sub' hfind hwrite ih a
    obtain ⟨_, _, _, hsub⟩ := entryWrite_ok.mp hwrite
    simp only [leafKindAt, leafKindIn_eq, entryAt, byteAt_sparse]
    rcases find_replaceSub (find_some hfind).1 (memWrite_size hsub).1 a with hsame | ⟨hold, hnew⟩
    · rw [hsame]
      exact ⟨rfl, fun _ => rfl⟩
    · rw [hold, hnew]
      exact ih (a - f.offset)

/-- An ADD_SPACE that changes the root registered the space. -/
theorem addToRoot_root {p : Params} {s t : State} {off : Nat} {sp : Space}
    (h : portCommand s (addToRoot p off sp s) = .next t) :
    t.root = s.root ∨ ∃ k, registerSpace p s.root off sp = .ok (t.root, k) := by
  obtain ⟨_, rfl⟩ := portCommand_next h
  rw [addToRoot]
  cases hreg : registerSpace p s.root off sp with
  | ok a => exact .inr ⟨a.2, rfl⟩
  | err | fault | refused => exact .inl rfl

/-- Settles O29: by the effects on the root, and by what a registration maps. -/
theorem mappedStaysMappedAndRomNeverChanges : Obligations.MappedStaysMappedAndRomNeverChanges := by
  refine ⟨fun i s t _ h a k hk => ?kept, fun p s off sp => ⟨fun t h a k hold hnew => ?mapped,
    exec_addSpace off sp s⟩⟩
  case kept =>
    cases exec_effect h with
    | stores hes =>
      obtain ⟨hkind, hrom⟩ := memWrite_keeps (memWrite_root hes) a
      refine ⟨hkind.trans hk, fun hor => ?_⟩
      rcases hor with rfl | hnot
      · exact hrom hk
      · exact absurd rfl (hnot _ _)
    | registers hreg =>
      obtain ⟨hkind, hbyte⟩ := registerSpace_keeps hreg hk
      exact ⟨hkind, fun _ => hbyte⟩
    | answers | refuses | loads | takes => exact ⟨hk, fun _ => rfl⟩
  case mapped =>
    rcases addToRoot_root h with hroot | ⟨_, hreg⟩
    · rw [hroot, hold] at hnew
      cases hnew
    · obtain ⟨hle, hkind, hbyte⟩ := registerSpace_maps hreg hold hnew
      exact ⟨hle, hkind, hbyte, fun hu hne => hbyte.trans (byteAt_unwritten sp _ k hu hkind hne)⟩

end Sys2Proof.Machine
end

section
/-! The windows of the scanner and the decoder (20_memory.md R46, 30_encoding.md R72, R88). -/

namespace Sys2Proof.Machine

theorem windowTooLong_of_lt {p : Params} {m : Nat} {w : List Byte} (hmax : p.maxWindow = some m)
    (hlen : w.length > m) : windowTooLong p w = true := by
  rw [windowTooLong, hmax]
  exact decide_eq_true hlen

/-- Settles O41: the refusal of the window is the first check of both commands. -/
theorem longWindowsAreRefused : Obligations.LongWindowsAreRefused := by
  refine fun p s w hrun => ⟨fun m hmax hlen => ?_, rfl, exec_decode w s⟩
  have hlong := windowTooLong_of_lt hmax hlen
  refine ⟨?_, ?_⟩
  · rw [portCommand_running hrun, loadWindow, if_pos hlong, deliver_refused]
  · rw [decodeCommand_running w hrun, decodeWindow, if_pos hlong]
    rfl

/-- Settles O49: by induction on the bytes, each the field of its eight bits. -/
theorem alignedFieldIsLittleEndian : Obligations.AlignedFieldIsLittleEndian := by
  intro window j k
  induction k generalizing j with
  | zero => intro _; rw [Nat.mul_zero, field, List.take_zero, littleEndian]
  | succ k ih =>
    intro hlen
    have hj : j < window.length := by omega
    calc field window (8 * j) (8 * (k + 1))
        = field window (8 * j) 8 + field window (8 * (j + 1)) (8 * k) <<< 8 := by
          rw [show 8 * (k + 1) = 8 + 8 * k by omega, field_add, show 8 * j + 8 = 8 * (j + 1) by omega]
      _ = window[j].toNat + 256 * littleEndian ((window.drop (j + 1)).take k) := by
          rw [← byte_eq_field, List.getD_eq_getElem window 0#8 hj, ih (j + 1) (by omega),
            Nat.shiftLeft_eq, Nat.mul_comm]
      _ = littleEndian ((window.drop j).take (k + 1)) := by
          rw [List.drop_eq_getElem_cons hj, List.take_succ_cons, littleEndian]

theorem windowWord_wordBytes_zero (h : BitVec 16) (trail : List Byte) :
    windowWord (wordBytes h ++ trail) 0 = h := headerWord_wordBytes h

/-- The words after the header are those of the bytes that follow it (R80, R81). -/
theorem windowWord_wordBytes_succ (h : BitVec 16) (trail : List Byte) (i : Nat) :
    windowWord (wordBytes h ++ trail) (1 + i) = wordAt trail (2 * i) := by
  rw [Nat.add_comm]
  rfl

/-- The instruction of an encoded header and the bytes after it is that of the table (R77 to R82). -/
theorem instructionAt_headerBytes (p : Params) (tag : Opcode) (op : BitVec 4) (out : RegCode)
    (fmt : BitVec 3) (r1 r2 : RegCode) (trail : List Byte) :
    instructionAt p tag (headerBytes op out fmt r1 r2 ++ trail)
      = decodedOf p tag out fmt r1 r2 trail := by
  rw [instructionAt, headerBytes, windowWord_wordBytes_zero, hdrFmt_headerOf, headerFields_headerOf,
    secondImmIndex, windowWord_wordBytes_succ, windowWord_wordBytes_succ (i := 0)]
  rfl

/-- DECODE of a toy row with its immediates: the refusal of the window, or what `OPCODE_MAP` makes of the
header (42_decoder.md R152). -/
theorem decodeCommand_headerBytes {p : Params} {s : State} {fmt : BitVec 3} {trail : List Byte}
    (op : BitVec 4) (out r1 r2 : RegCode) (hrun : s.stopped = none)
    (hlen : 2 * nimm p fmt ≤ trail.length) :
    decodeCommand p (headerBytes op out fmt r1 r2 ++ trail) s
      = .next (windowAnswer p (headerBytes op out fmt r1 r2 ++ trail) s (s.respond
          (match p.opcodeMap op with
          | none => .err .invalidOpcode
          | some tag => .ok (.insn (decodedOf p tag out fmt r1 r2 trail))))) := by
  have whole : 2 + 2 * nimm p fmt ≤ (headerBytes op out fmt r1 r2 ++ trail).length := by
    simp only [headerBytes, wordBytes, List.length_append, List.length_cons, List.length_nil]
    omega
  have header : windowWord (headerBytes op out fmt r1 r2 ++ trail) 0 = headerOf op out fmt r1 r2 :=
    windowWord_wordBytes_zero _ trail
  rw [decodeCommand_running _ hrun, windowAnswer]
  split_ifs with hlong
  · rw [decodeWindow, if_pos hlong]
    rfl
  · rw [decodeWindow_eq (Bool.eq_false_iff.mpr hlong), if_neg (by omega), header, hdrOp_headerOf,
      hdrFmt_headerOf]
    cases p.opcodeMap op with
    | none => rfl
    | some tag =>
      simp only
      rw [if_neg (by omega), instructionAt_headerBytes]
      rfl

/-- Settles O56: each row runs as DECODE of its bytes. -/
theorem toyHeaderRowsDecode : Obligations.ToyHeaderRowsDecode := by
  intro p s op out r1 r2 trail hrun row hrow
  have runs : exec (row.1 op out r1 r2 trail) s
      = decodeCommand Config.params (headerBytes op out row.2 r1 r2 ++ trail) s := by
    revert row
    simp only [List.forall_mem_cons]
    exact ⟨rfl, rfl, rfl, rfl, rfl, rfl, rfl, rfl, nofun⟩
  exact ⟨fun hlen => runs.trans (decodeCommand_headerBytes op out r1 r2 hrun hlen),
    fun hlen => decodeCommand_headerBytes op out r1 r2 hrun hlen⟩

/-- DECODE of a Mov row, wherever opcode 1 is Mov (R83). -/
theorem decodeCommand_mov {p : Params} {s : State} {fmt : BitVec 3} {trail : List Byte}
    (out r1 r2 : RegCode) (hrun : s.stopped = none) (hmap : p.opcodeMap 1#4 = some .mov)
    (hlen : 2 * nimm p fmt ≤ trail.length) :
    decodeCommand p (headerBytes 1#4 out fmt r1 r2 ++ trail) s
      = .next (windowAnswer p (headerBytes 1#4 out fmt r1 r2 ++ trail) s
          (s.respond (.ok (.insn (decodedOf p .mov out fmt r1 r2 trail))))) := by
  have decoded := decodeCommand_headerBytes 1#4 out r1 r2 hrun hlen
  simpa only [hmap] using decoded

/-- Settles O57: the row runs as DECODE of its bytes. -/
theorem movDecodes : Obligations.MovDecodes := fun _ _ out _ r1 r2 _ hrun =>
  ⟨fun hlen => decodeCommand_mov out r1 r2 hrun opcodeMap_one hlen,
    fun hmap hlen => decodeCommand_mov out r1 r2 hrun hmap hlen⟩

end Sys2Proof.Machine
end
